-- ==== Sys2Proof/Word.lean ====
section
/-! DEFINITION. The one word type of the unit: a byte. Registers, memory cells, immediates, addresses and the
program counter are all 8 bits (spec/00_scope.md rules R2, R3; spec/20_memory.md rule R39). -/

namespace Sys2Proof

/-- An unsigned 8-bit value, 0 to 255; bit 7 is the most significant (rules R2, R4). -/
abbrev Byte := BitVec 8

/-- A register number that selects a register, 0 to 7 (rule R10). -/
abbrev RegNum := Fin 8

end Sys2Proof
end

