-- ==== Sys2Proof/Config.lean ====
section
/-! DEFINITION. The sizes the spec fixes (spec/00_scope.md rule R2) and the values it leaves OPEN at reset
(spec/92_eei_decisions.md D8: RESET_X and RESET_FL), as a parameter record. -/

namespace Sys2Proof.Config

/-- MEM_SIZE: 256 cells (rule R2). -/
abbrev memSize : Nat := 256

/-- The greatest address of a cell, 255 (rule R33). -/
abbrev lastAddress : Nat := 255

/-- The greatest register index, 7 (rules R10, R74). -/
abbrev lastRegister : Nat := 7

/-- RESET_PC: 0 (rules R14, R29). -/
def resetPc : Byte := 0

/-- What a cell the program does not fill holds: 0 (rules R26, R37, R133). It is also what an address that the
model's memory list does not name reads as. -/
def fillByte : Byte := 0

/-- The OPEN parameters of the launch state (rules R13, R21, R29; decision D8): RESET_X, eight bytes, and RESET_FL,
any of the eight combinations of L, G and E. A claim about a run quantifies over a value of this type. -/
structure ResetValues where
  /-- RESET_X[0..7] (rule R13). -/
  x : Vector Byte 8
  /-- RESET_FL.L (rule R21). -/
  l : Bool
  /-- RESET_FL.G (rule R21). -/
  g : Bool
  /-- RESET_FL.E (rule R21). -/
  e : Bool
deriving DecidableEq, Repr

/-- DESIGN CHOICE (unsafe; log entries 1 and 2): the one value of the open parameters that `State.reset` names. The
spec gives none; no statement rests on it: statements about runs are about every `ResetValues`. -/
def chosenReset : ResetValues :=
  { x := Vector.replicate 8 0, l := false, g := false, e := false }

end Sys2Proof.Config
end

