-- ==== Sys2Proof/Machine/State.lean ====
section
/-! DEFINITION. The whole state of the unit, as plain data (spec/10_state.md: the tuple S and rules R10 to R29), the
outcome types of a step, and the state after reset. -/

namespace Sys2Proof.Machine

/-- The flag register FL: three single-bit values (rules R19, R22). Its byte view is `State.fl8`. -/
structure Flags where
  /-- Less-than. -/
  l : Bool
  /-- Greater-than. -/
  g : Bool
  /-- Equal. -/
  e : Bool
deriving DecidableEq, Repr

/-- The run state RUN (rule R23). -/
inductive RunState where
  | running
  | halted
  | faulted
deriving DecidableEq, Repr

/-- The three fault causes (rule R111). Their codes are `faultCode`. -/
inductive FaultCause where
  /-- MEM_RANGE: an operand byte of a recognised instruction lies above address 255 (rule R73). -/
  | memRange
  /-- REG_INDEX: an operand byte used as a register index is above 7 (rule R74). -/
  | regIndex
  /-- PC_RANGE: the sequential next address is above 255 (rule R75). -/
  | pcRange
deriving DecidableEq, Repr

/-- MEM: (address, byte) pairs in one canonical form, `Memory.wf`; an address that is not listed reads as
`Config.fillByte` (rules R26, R37, R133). -/
abbrev Memory := List Host.Cell

/-- The state tuple S of spec/10_state.md. -/
structure State where
  /-- X[0..7], the general registers, all alike (rules R10, R11). -/
  x : Vector Byte 8
  /-- PC, the program counter (rules R3, R14). -/
  pc : Byte
  /-- FL, the flags L, G, E (rule R19). -/
  fl : Flags
  /-- RUN, the run state (rule R23). -/
  run : RunState
  /-- FC, the fault cause; none is the spec's NONE, code 0 (rule R24). -/
  fc : Option FaultCause
  /-- MEM[0..255] (rules R26, R33). -/
  mem : Memory
  /-- OUT, the values emitted so far, oldest first (rule R25). -/
  out : List Byte
deriving DecidableEq, Repr

/-- Why a step stops without a next state. NO REASON EXISTS, so the type has no constructor: nothing raises it. The
three faults of rule R111 are taken, as next states with RUN = FAULTED (rule R114); the halt is a next state with RUN =
HALTED (rule R105). Safe: nothing is cut off. -/
inductive Fault where
deriving DecidableEq, Repr

/-- Why an instruction is given no meaning. -/
inductive Refusal where
  /-- Raised only by an arm of `exec` whose instruction has no meaning yet; no arm raises it. Safe: it stops. -/
  | notModelled (mnemonic : String)
deriving DecidableEq, Repr

/-- What a step answers. -/
abbrev StepResult := Host.Outcome State Fault Refusal

/-- The machine right after reset with the empty program: the launch state of rule R29 for n = 0 (rule R140), the
open parameters RESET_X and RESET_FL at the values `Config.chosenReset` names (DESIGN CHOICE, log entries 1 to 3).
`State.launch` is the launch state for every value of the parameters and every program. -/
def State.reset : State :=
  { x := Config.chosenReset.x
    pc := Config.resetPc
    fl := { l := Config.chosenReset.l, g := Config.chosenReset.g, e := Config.chosenReset.e }
    run := .running
    fc := none
    mem := []
    out := [] }

end Sys2Proof.Machine
end

