-- ==== Sys2Proof/Machine/Flags.lean ====
section
/-! DEFINITION. The unit's only flag computation, the comparison of CMP (spec/43_cmp.md rules R92, R93), and the byte
view of the flags (spec/10_state.md rule R22). -/

namespace Sys2Proof.Machine

/-- The flags of a comparison of two bytes as the natural numbers 0 to 255 (rule R93): no subtraction, no sign. -/
def compareFlags (va vb : Byte) : Flags :=
  { l := decide (va.toNat < vb.toNat)
    g := decide (va.toNat > vb.toNat)
    e := decide (va.toNat = vb.toNat) }

/-- FL8 = 0b00000LGE: L is bit 2, G bit 1, E bit 0, bits 7 to 3 are 0 (rules R4, R22). A view: no instruction reads or
writes it. -/
def Flags.byte (f : Flags) : Byte :=
  (0 : BitVec 5) ++ BitVec.ofBool f.l ++ BitVec.ofBool f.g ++ BitVec.ofBool f.e

end Sys2Proof.Machine
end

