-- ==== Sys2Proof/Machine/Ops.lean ====
section
/-! DEFINITION. The named operations over memory and registers: the pseudocode primitives of spec/00_scope.md section 6,
and the taking of a fault (spec/60_exceptions.md rule R114). There is no return from a fault (rule R115). -/

namespace Sys2Proof.Machine

/-- The byte listed for an address, or the fill byte where none is. -/
def readCell : List Host.Cell → Nat → Byte
  | [], _ => Config.fillByte
  | (k, v) :: rest, a => if k = a then v else readCell rest a

/-- The list with the byte of one address changed, in canonical form again: a fill byte is not listed. -/
def writeCell : List Host.Cell → Nat → Byte → List Host.Cell
  | [], a, v => if v = Config.fillByte then [] else [(a, v)]
  | (k, w) :: rest, a, v =>
    if a < k then
      if v = Config.fillByte then (k, w) :: rest else (a, v) :: (k, w) :: rest
    else if a = k then
      if v = Config.fillByte then rest else (a, v) :: rest
    else (k, w) :: writeCell rest a v

/-- Addresses rise strictly from `low`, lie in 0 to 255, and no fill byte is listed. -/
def canonicalFrom : Nat → List Host.Cell → Bool
  | _, [] => true
  | low, (k, v) :: rest =>
    decide (low ≤ k) && decide (k < Config.memSize) && (v != Config.fillByte) && canonicalFrom (k + 1) rest

/-- The canonical form of a memory: equal memories are equal lists. -/
def Memory.wf (m : Memory) : Bool :=
  canonicalFrom 0 m

/-- `MemRead(a, 1)` (rule R34): an address is 8 bits, so it always names a cell. -/
def Memory.read (m : Memory) (a : Byte) : Byte :=
  readCell m a.toNat

/-- `MemWrite(a, 1, v)` (rule R35): only the host's load performs it. -/
def Memory.write (m : Memory) (a v : Byte) : Memory :=
  writeCell m a.toNat v

/-- Bytes written to consecutive cells from `a` up; a byte whose address would pass 255 has no cell and is dropped. -/
def Memory.writeBytes (m : Memory) (a : Nat) : List Byte → Memory
  | [] => m
  | b :: rest =>
    Memory.writeBytes (if a ≤ Config.lastAddress then m.write (BitVec.ofNat 8 a) b else m) (a + 1) rest

/-- The content of the cell at an address (rule R34); it changes nothing. -/
def State.memRead (s : State) (a : Byte) : Byte :=
  Memory.read s.mem a

/-- `x[r]`: the content of a register (rules R10, R11: all eight are alike, none is hard-wired). -/
def State.readReg (s : State) (r : RegNum) : Byte :=
  s.x[r]

/-- `x[r] <- v`. -/
def State.writeReg (s : State) (r : RegNum) (v : Byte) : State :=
  { s with x := s.x.set r v }

/-- `pc <- t`. -/
def State.writePc (s : State) (t : Byte) : State :=
  { s with pc := t }

/-- `FL <- (l, g, e)`: all three flags at once. -/
def State.writeFlags (s : State) (f : Flags) : State :=
  { s with fl := f }

/-- `Out(v)`: append one value to OUT (rule R25). -/
def State.emit (s : State) (v : Byte) : State :=
  { s with out := s.out ++ [v] }

/-- `raise Fault(c)`: taking a fault (rule R114). RUN and FC are written, nothing else; no state is saved, no handler
is entered, PC stays at the opcode byte of the faulting instruction. -/
def State.takeFault (s : State) (c : FaultCause) : State :=
  { s with run := .faulted, fc := some c }

/-- The effect of the halt on the state (rule R105). -/
def State.enterHalted (s : State) : State :=
  { s with run := .halted }

/-- An instruction's end: the checks either all pass and give the state with every write made, or the first that
fails names the cause of the fault that is taken in the state before the instruction (rules R76, R113, R114). -/
def orFault (s : State) (result : Except FaultCause State) : StepResult :=
  match result with
  | .ok t => .next t
  | .error c => .next (s.takeFault c)

end Sys2Proof.Machine
end

