-- ==== Sys2Proof/Machine/Operands.lean ====
section
/-! DEFINITION. The three helper operations every instruction is written over, each with its check
(spec/40_fetch_decode_execute.md rules R73, R74, R75). The spec forms the address sums in 9 bits so that a result above
255 is visible; the model forms the same sums exactly, in Nat, and narrows after the check (log entry 9). -/

namespace Sys2Proof.Machine

/-- The address half of `Operand(k)` (rule R73): PC + k, or the fault MEM_RANGE above 255. It never wraps. -/
def operandAddr (k : Nat) (s : State) : Except FaultCause Byte :=
  let a := s.pc.toNat + k
  if a > Config.lastAddress then .error .memRange else .ok (BitVec.ofNat 8 a)

/-- `Operand(k)` (rule R73): the byte k places after the opcode. -/
def operand (k : Nat) (s : State) : Except FaultCause Byte := do
  let a ← operandAddr k s
  return s.memRead a

/-- `RegIdx(b)` (rule R74): the register an operand byte selects, or the fault REG_INDEX above 7. The upper five bits
are not ignored (rule R53). -/
def regIdx (b : Byte) : Except FaultCause RegNum :=
  if h : b.toNat > Config.lastRegister then .error .regIndex
  else .ok ⟨b.toNat, Nat.lt_succ_of_le (Nat.le_of_not_gt h)⟩

/-- `Next(n)` (rule R75): PC + n, or the fault PC_RANGE above 255. It never wraps (rule R18). -/
def nextPc (n : Nat) (s : State) : Except FaultCause Byte :=
  let t := s.pc.toNat + n
  if t > Config.lastAddress then .error .pcRange else .ok (BitVec.ofNat 8 t)

end Sys2Proof.Machine
end

