-- ==== Sys2Proof/Machine/Compare.lean ====
section
/-! DEFINITION. CMP, compare registers (spec/43_cmp.md). -/

namespace Sys2Proof.Machine

/-- CMP (rule R92): all three flags from the unsigned comparison of two registers, PC + 3. -/
def execCmp (regA regB : Byte) (s : State) : StepResult :=
  orFault s do
    let _ ← operandAddr 1 s
    let _ ← operandAddr 2 s
    let a ← regIdx regA
    let b ← regIdx regB
    let t ← nextPc 3 s
    return (s.writeFlags (compareFlags (s.readReg a) (s.readReg b))).writePc t

end Sys2Proof.Machine
end

