-- ==== Sys2Proof/Machine/Halt.lean ====
section
/-! DEFINITION. The implicit halt (spec/45_halt.md). -/

namespace Sys2Proof.Machine

/-- halt (rules R105, R106): RUN <- HALTED and nothing else; no operand, no check, PC stays at the byte. It is an
ordinary outcome of a step, not an error (rule R107). -/
def execHalt (s : State) : StepResult :=
  .next s.enterHalted

end Sys2Proof.Machine
end

