-- ==== Sys2Proof/Machine/Jumps.lean ====
section
/-! DEFINITION. JMP, JEQ, JNE, control transfer (spec/44_jumps.md): register-indirect, absolute, nothing saved. -/

namespace Sys2Proof.Machine

/-- JMP (rule R97): `pc <- x[r]`; there is no sequential advance, so never PC_RANGE. -/
def execJmp (reg : Byte) (s : State) : StepResult :=
  orFault s do
    let _ ← operandAddr 1 s
    let r ← regIdx reg
    return s.writePc (s.readReg r)

/-- A conditional jump (rules R98, R99): the index is checked whether or not the jump is taken, and the sequential
address only when it is not. -/
def conditionalJump (taken : Bool) (reg : Byte) (s : State) : StepResult :=
  orFault s do
    let _ ← operandAddr 1 s
    let r ← regIdx reg
    if taken then
      return s.writePc (s.readReg r)
    else
      let t ← nextPc 2 s
      return s.writePc t

/-- JEQ (rule R98): taken when E = 1; L and G are not consulted. -/
def execJeq (reg : Byte) (s : State) : StepResult :=
  conditionalJump s.fl.e reg s

/-- JNE (rule R99): taken when E = 0; L and G are not consulted. -/
def execJne (reg : Byte) (s : State) : StepResult :=
  conditionalJump (!s.fl.e) reg s

end Sys2Proof.Machine
end

