-- ==== Sys2Proof/Machine/Load.lean ====
section
/-! DEFINITION. LDI, load immediate (spec/41_ldi.md). -/

namespace Sys2Proof.Machine

/-- LDI (rule R85): `x[r] <- op2`, PC + 3. -/
def execLdi (reg imm8 : Byte) (s : State) : StepResult :=
  orFault s do
    let _ ← operandAddr 1 s
    let _ ← operandAddr 2 s
    let r ← regIdx reg
    let t ← nextPc 3 s
    return (s.writeReg r imm8).writePc t

end Sys2Proof.Machine
end

