-- ==== Sys2Proof/Machine/Output.lean ====
section
/-! DEFINITION. PRN, print register (spec/42_prn.md). The rendering of a value as text is the sink's and stands in
Machine/Views.lean (rule R89). -/

namespace Sys2Proof.Machine

/-- PRN (rule R88): `Out(x[r])`, PC + 2. -/
def execPrn (reg : Byte) (s : State) : StepResult :=
  orFault s do
    let _ ← operandAddr 1 s
    let r ← regIdx reg
    let t ← nextPc 2 s
    return (s.emit (s.readReg r)).writePc t

end Sys2Proof.Machine
end

