-- ==== Sys2Proof/Syntax.lean ====
section
/-! DEFINITION. The instruction set, whole: one constructor per row of spec/opcode_table.json
(spec/30_encoding.md rules R51, R55, R56). -/

namespace Sys2Proof

/-- The six instructions and the implicit halt. A register operand is a WHOLE BYTE of the encoding (rule R53): the
bytes 8 to 255 are operands the encoding admits and the machine faults on (rule R74), so they are part of the syntax. -/
inductive Instr where
  /-- `LDI Rr,imm8`: 0x82, r, imm8 (rule R85). -/
  | ldi (reg imm8 : Byte)
  /-- `PRN Rr`: 0x47, r (rule R88). -/
  | prn (reg : Byte)
  /-- `CMP Ra,Rb`: 0xA7, a, b (rule R92). -/
  | cmp (regA regB : Byte)
  /-- `JMP Rr`: 0x54, r (rule R97). -/
  | jmp (reg : Byte)
  /-- `JEQ Rr`: 0x55, r (rule R98). -/
  | jeq (reg : Byte)
  /-- `JNE Rr`: 0x56, r (rule R99). -/
  | jne (reg : Byte)
  /-- The implicit halt (rules R56, R105): any of the 250 opcode bytes that are not one of the six; the byte is kept,
  so that encoding loses nothing. -/
  | halt (opcode : Byte)
deriving DecidableEq, Repr

end Sys2Proof
end

