-- ==== Sys2Proof/Decode.lean ====
section
/-! DEFINITION. Decoding, total on any bytes, and encoding (spec/30_encoding.md). The opcode is the whole of byte 0
and alone selects the instruction (rules R52, R72); operands are the bytes that follow, in ascending address order
(rules R39, R50). -/

namespace Sys2Proof

/-- LDI's opcode byte (rule R55). -/
def opLdi : Byte := 0b10000010
/-- PRN's opcode byte (rule R55). -/
def opPrn : Byte := 0b01000111
/-- CMP's opcode byte (rule R55). -/
def opCmp : Byte := 0b10100111
/-- JMP's opcode byte (rule R55). -/
def opJmp : Byte := 0b01010100
/-- JEQ's opcode byte (rule R55). -/
def opJeq : Byte := 0b01010101
/-- JNE's opcode byte (rule R55). -/
def opJne : Byte := 0b01010110

/-- The byte is one of the six recognised opcodes (rule R55). -/
def recognised (op : Byte) : Bool :=
  op == opLdi || op == opPrn || op == opCmp || op == opJmp || op == opJeq || op == opJne

/-- The length of an instruction in bytes, from its opcode byte alone (rule R57). -/
def instrLength (op : Byte) : Nat :=
  if op = opLdi ∨ op = opCmp then 3 else if recognised op then 2 else 1

/-- Why a byte string is no instruction: it ends too soon. There is no illegal opcode (rules R56, R58). -/
inductive DecodeError where
  /-- The string is empty. -/
  | opcodeMissing
  /-- The opcode has a first operand byte and the string ends before it. -/
  | operand1Missing
  /-- The opcode has a second operand byte and the string ends before it. -/
  | operand2Missing
deriving DecidableEq, Repr

/-- What decoding answers: the instruction with the bytes after it, or a named rejection. -/
abbrev Decoded := Except DecodeError (Instr × List Byte)

/-- Format OP_R: one operand byte (rule R51). -/
def decodeOneOperand (make : Byte → Instr) : List Byte → Decoded
  | [] => .error .operand1Missing
  | op1 :: rest => .ok (make op1, rest)

/-- Formats OP_R_I and OP_R_R: two operand bytes (rule R51). -/
def decodeTwoOperands (make : Byte → Byte → Instr) : List Byte → Decoded
  | [] => .error .operand1Missing
  | [_] => .error .operand2Missing
  | op1 :: op2 :: rest => .ok (make op1 op2, rest)

/-- The decoder: the dispatch of rule R70, with the default row for every other opcode byte (rule R56), which takes
no operand byte (rule R60). -/
def decode : List Byte → Decoded
  | [] => .error .opcodeMissing
  | ir :: rest =>
    if ir = opLdi then decodeTwoOperands .ldi rest
    else if ir = opPrn then decodeOneOperand .prn rest
    else if ir = opCmp then decodeTwoOperands .cmp rest
    else if ir = opJmp then decodeOneOperand .jmp rest
    else if ir = opJeq then decodeOneOperand .jeq rest
    else if ir = opJne then decodeOneOperand .jne rest
    else .ok (.halt ir, rest)

/-- The first byte of an instruction (rule R50). -/
def Instr.opcode : Instr → Byte
  | .ldi _ _ => opLdi
  | .prn _ => opPrn
  | .cmp _ _ => opCmp
  | .jmp _ => opJmp
  | .jeq _ => opJeq
  | .jne _ => opJne
  | .halt op => op

/-- The operand bytes of an instruction, in ascending address order (rules R50, R51). -/
def Instr.operandBytes : Instr → List Byte
  | .ldi reg imm8 => [reg, imm8]
  | .prn reg => [reg]
  | .cmp regA regB => [regA, regB]
  | .jmp reg => [reg]
  | .jeq reg => [reg]
  | .jne reg => [reg]
  | .halt _ => []

/-- The encoder: the bytes of an instruction, lowest address first (rule R51). -/
def encode (i : Instr) : List Byte :=
  i.opcode :: i.operandBytes

/-- The length of an instruction in bytes (rules R51, R57). -/
def Instr.length (i : Instr) : Nat :=
  (encode i).length

/-- The three bytes of a word numbered as spec/opcode_table.json numbers it: bit 0 is the least significant bit of the
first byte, the second byte is bits 15 to 8, and every bit from `nbits` up is 0. Three is the longest instruction
(rule R2). -/
def tableBytes (nbits w : Nat) : List Byte :=
  let v := w % 2 ^ nbits
  [BitVec.ofNat 8 v, BitVec.ofNat 8 (v / 2 ^ 8), BitVec.ofNat 8 (v / 2 ^ 16)]

/-- The instruction the decoder reads from a table word. -/
def decodeTableWord (nbits w : Nat) : Option Instr :=
  match decode (tableBytes nbits w) with
  | .ok (i, _) => some i
  | .error _ => none

/-- The table word of a byte string: its first byte in bits 7 to 0, the next in bits 15 to 8, and so on. -/
def tableWord : List Byte → Nat
  | [] => 0
  | b :: rest => b.toNat + 2 ^ 8 * tableWord rest

end Sys2Proof
end

