-- ==== Sys2Proof/Machine/Fetch.lean ====
section
/-! DEFINITION. Fetching the instruction at PC (spec/40_fetch_decode_execute.md rules R71, R73; spec/20_memory.md rule
R36): the opcode first, then only the operand bytes its opcode has, in ascending address order. -/

namespace Sys2Proof.Machine

/-- The opcode byte at PC; this read never faults (rule R71). -/
def fetchOpcode (s : State) : Byte :=
  s.memRead s.pc

/-- The first n operand bytes, each with its MEM_RANGE check (rules R73, R76). -/
def fetchOperands (s : State) : Nat → Except FaultCause (List Byte)
  | 0 => .ok []
  | n + 1 => do
    let before ← fetchOperands s n
    let op ← operand (n + 1) s
    return before ++ [op]

/-- The instruction at PC, or MEM_RANGE where one of its operand bytes would lie above address 255. An unrecognised
opcode has no operand to fetch and so never faults (rule R60). The decoder gets as many bytes as the opcode asks for,
so its own rejection does not arise (`Laws.fetch_eq`). -/
def fetch (s : State) : Except FaultCause Instr := do
  let ir := fetchOpcode s
  let ops ← fetchOperands s (instrLength ir - 1)
  match decode (ir :: ops) with
  | .ok (i, _) => .ok i
  | .error _ => .error .memRange

/-- A memory with the bytes of a table word at `pc`, `pc + 1` and `pc + 2`, as far as they are cells. -/
def placeWord (m : Memory) (pc : Byte) (nbits w : Nat) : Memory :=
  m.writeBytes pc.toNat (tableBytes nbits w)

end Sys2Proof.Machine
end

