-- ==== Sys2Proof/Machine/Step.lean ====
section
/-! DEFINITION. One step of the unit (spec/40_fetch_decode_execute.md rule R70). -/

namespace Sys2Proof.Machine

/-- One pass of fetch, decode and execute. A fetch that faults takes its fault (rules R73, R114). In HALTED and in
FAULTED nothing changes until reset (rules R23, R77): the model answers the same state (log entry 4). -/
def step (s : State) : Host.Outcome State Fault Refusal :=
  match s.run with
  | .running =>
    match fetch s with
    | .ok i => exec i s
    | .error c => .next (s.takeFault c)
  | .halted => .next s
  | .faulted => .next s

/-- The state with a table word's bytes where `step` fetches next, at PC, and in the run state that lets it fetch:
RUNNING, with FC = NONE, which goes with it (rule R24). It stands for the host's load (log entries 3 and 11). -/
def State.withFetchWord (s : State) (nbits w : Nat) : State :=
  { s with run := .running, fc := none, mem := placeWord s.mem s.pc nbits w }

end Sys2Proof.Machine
end

