-- ==== Sys2Proof/Machine/Boot.lean ====
section
/-! DEFINITION. Reset and the load of memory before a run: what the world outside does to the unit, and the launch
state (spec/70_reset_and_hazards.md rules R130 to R135; spec/10_state.md rule R29). None of it is part of a step. -/

namespace Sys2Proof.Machine

/-- IMAGE as canonical memory: the program bytes at `a`, `a + 1`, …, fill bytes elsewhere (rule R133). -/
def imageFrom (a : Nat) : List Byte → Memory
  | [] => []
  | b :: rest => if b = Config.fillByte then imageFrom (a + 1) rest else (a, b) :: imageFrom (a + 1) rest

/-- IMAGE of a program of at most 256 bytes, placed from address 0 in file order (rules R37, R133). -/
def image (program : List Byte) : Memory :=
  imageFrom 0 program

/-- The launch state S0 (rule R29), for every value of the open parameters and every program. -/
def State.launch (p : Config.ResetValues) (program : List Byte) : State :=
  { x := p.x
    pc := Config.resetPc
    fl := { l := p.l, g := p.g, e := p.e }
    run := .running
    fc := none
    mem := image program
    out := [] }

/-- The input `rst`: the registers are forced to their launch values and OUT is empty; memory is not written (rules
R130, R132). It is the only way out of HALTED and FAULTED, and abandons a run that is RUNNING (rule R131). -/
def State.assertReset (p : Config.ResetValues) (s : State) : State :=
  { s with
    x := p.x
    pc := Config.resetPc
    fl := { l := p.l, g := p.g, e := p.e }
    run := .running
    fc := none
    out := [] }

/-- One write of the load: `MemWrite(a, 1, if a < n then b[a] else 0)` (rule R133). -/
def loadCell (program : List Byte) (m : Memory) (a : Nat) : Memory :=
  m.write (BitVec.ofNat 8 a) (program.getD a Config.fillByte)

/-- The host's load under reset: all 256 cells are written (rules R133, R134). -/
def State.hostLoad (program : List Byte) (s : State) : State :=
  { s with mem := (List.range Config.memSize).foldl (loadCell program) s.mem }

end Sys2Proof.Machine
end

