-- ==== Sys2Proof/Machine/Loader.lean ====
section
/-! DEFINITION. The program loader's contract: which bytes a program text stands for (spec/30_encoding.md rules R63 to
R65; spec/70_reset_and_hazards.md rules R136 to R140). The loader is outside the unit; the spec records its contract,
and the model states it as functions on the text's characters. -/

namespace Sys2Proof.Machine

/-- Why a load gives no image and no run takes place. -/
inductive LoadError where
  /-- The text yields more than 256 bytes (rule R138). -/
  | overflow
  /-- The source cannot be opened or located (rule R139). -/
  | sourceNotFound
deriving DecidableEq, Repr

/-- A text cut at its line ends. DESIGN CHOICE (log entry 13): a line ends at the newline character. -/
def splitLines : List Char → List (List Char)
  | [] => [[]]
  | c :: rest =>
    if c = '\n' then [] :: splitLines rest
    else
      match splitLines rest with
      | [] => [[c]]
      | line :: lines => (c :: line) :: lines

/-- The line up to its first `#` (rule R63). -/
def stripComment (line : List Char) : List Char :=
  line.takeWhile (· != '#')

/-- Whitespace for trimming. PRESUMED (log entry 13): the ASCII space, tab, vertical tab, form feed and carriage return. -/
def isSpace (c : Char) : Bool :=
  c.toNat == 32 || c.toNat == 9 || c.toNat == 11 || c.toNat == 12 || c.toNat == 13

/-- The line without the whitespace around it (rule R63). -/
def trim (line : List Char) : List Char :=
  ((line.dropWhile isSpace).reverse.dropWhile isSpace).reverse

/-- The binary number the digits write, most significant first (rule R4). -/
def binaryValue (digits : List Char) : Nat :=
  digits.foldl (fun n c => 2 * n + (if c = '1' then 1 else 0)) 0

/-- A token is accepted if and only if it is 1 to 8 characters, each `0` or `1` (rule R65). -/
def isBinaryToken (token : List Char) : Bool :=
  decide (1 ≤ token.length) && decide (token.length ≤ 8) && token.all fun c => c == '0' || c == '1'

/-- The byte of a line, or none where the line is skipped (rules R64, R137). -/
def lineByte (line : List Char) : Option Byte :=
  let token := trim (stripComment line)
  if isBinaryToken token then some (BitVec.ofNat 8 (binaryValue token)) else none

/-- The bytes of a text in file order; a skipped line leaves no gap (rules R64, R137). -/
def textBytes (text : List Char) : List Byte :=
  (splitLines text).filterMap lineByte

/-- The program a text stands for: refused above the capacity of memory (rule R138). -/
def loadText (text : List Char) : Except LoadError (List Byte) :=
  if (textBytes text).length > Config.memSize then .error .overflow else .ok (textBytes text)

/-- The boot sequence: the source is loaded under reset, then reset is released (rules R135, R139). -/
def bootFrom (p : Config.ResetValues) : Option (List Char) → Except LoadError State
  | none => .error .sourceNotFound
  | some text => do
    let program ← loadText text
    return State.launch p program

end Sys2Proof.Machine
end

