-- ==== Sys2Proof/Machine/Views.lean ====
section
/-! DEFINITION. What the outside can see, none of it state and none of it part of a step: the output ports
(spec/10_state.md rules R31, R32), the sink's rendering (spec/42_prn.md rule R89), the trace line
(spec/60_exceptions.md rule R124) and the assembly notation (spec/30_encoding.md rule R61). -/

namespace Sys2Proof.Machine

/-- The code of FC, 2 bits (rules R24, R111). -/
def faultCode : Option FaultCause → BitVec 2
  | none => 0
  | some .memRange => 1
  | some .regIndex => 2
  | some .pcRange => 3

/-- Output `halted` (rule R32). -/
def State.haltedPort (s : State) : Bool :=
  s.run == .halted

/-- Output `faulted` (rule R32). -/
def State.faultedPort (s : State) : Bool :=
  s.run == .faulted

/-- Output `fault_cause[1:0]` (rule R32). -/
def State.faultCausePort (s : State) : BitVec 2 :=
  faultCode s.fc

/-- Debug output `dbg_fl`: FL8 (rules R22, R32). -/
def State.fl8 (s : State) : Byte :=
  s.fl.byte

/-- The addresses the unit puts on `mem_addr` in the next step, in order: PC, then the operand addresses its opcode
asks for, as far as they do not fault (rules R30, R36, R76). -/
def State.fetchAddresses (s : State) : List Byte :=
  s.pc :: (List.range (instrLength (fetchOpcode s) - 1)).filterMap fun k => (operandAddr (k + 1) s).toOption

/-- `out_valid` and `out_data` of the step from s to t: the value strobed, if there is one (rule R31). -/
def outStrobe (s t : State) : Option Byte :=
  (t.out.drop s.out.length).head?

/-- `dec(v)`: base 10, no sign, no leading zero, no padding (rule R89). -/
def decimal (v : Byte) : List Char :=
  Nat.toDigits 10 v.toNat

/-- One line of the sink. DESIGN CHOICE (log entry 14): the line end is the newline character; the spec names none. -/
def sinkLine (v : Byte) : List Char :=
  decimal v ++ ['\n']

/-- The text a user of the whole system sees: the lines in the order of OUT (rule R89). -/
def sinkText (out : List Byte) : List Char :=
  (out.map sinkLine).flatten

/-- An upper-case hexadecimal digit. -/
def hexDigit (n : Nat) : Char :=
  ['0', '1', '2', '3', '4', '5', '6', '7', '8', '9', 'A', 'B', 'C', 'D', 'E', 'F'].getD n '0'

/-- A byte in two upper-case hexadecimal digits. -/
def hexByte (v : Byte) : List Char :=
  [hexDigit (v.toNat / 16), hexDigit (v.toNat % 16)]

/-- A trace field for the cell k places after PC; `--` above address 255 (rule R124). -/
def traceCell (s : State) (k : Nat) : List Char :=
  match operand k s with
  | .ok v => hexByte v
  | .error _ => ['-', '-']

/-- One trace line: PC, three cells from PC, X[0] to X[7], separated by single spaces (rule R124). -/
def State.traceLine (s : State) : List Char :=
  [' '].intercalate ([hexByte s.pc, traceCell s 0, traceCell s 1, traceCell s 2] ++ s.x.toList.map hexByte)

/-- `Rr`, the notation of a register operand (rule R61). -/
def asmReg (b : Byte) : List Char :=
  'R' :: decimal b

/-- The mnemonic notation of an instruction (rules R61, R62); for examples only, never parsed. -/
def asmText : Instr → List Char
  | .ldi reg imm8 => ['L', 'D', 'I', ' '] ++ asmReg reg ++ [','] ++ decimal imm8
  | .prn reg => ['P', 'R', 'N', ' '] ++ asmReg reg
  | .cmp regA regB => ['C', 'M', 'P', ' '] ++ asmReg regA ++ [','] ++ asmReg regB
  | .jmp reg => ['J', 'M', 'P', ' '] ++ asmReg reg
  | .jeq reg => ['J', 'E', 'Q', ' '] ++ asmReg reg
  | .jne reg => ['J', 'N', 'E', ' '] ++ asmReg reg
  | .halt _ => ['h', 'a', 'l', 't']

end Sys2Proof.Machine
end

