-- ==== Sys2Proof/WellFormed.lean ====
section
/-! DEFINITION. Two checks on an instruction as syntax: that it is one the opcode map gives (`Instr.wf`), and that its
register operands select registers (`Instr.operandsLegal`). Every decoded instruction passes the first; an instruction
that fails the second still runs, into the fault REG_INDEX (spec/40_fetch_decode_execute.md rule R74). -/

namespace Sys2Proof

/-- A halt stands for an UNRECOGNISED opcode byte (rule R56); every operand byte is admitted (rules R53, R54). -/
def Instr.wf : Instr → Bool
  | .ldi _ _ => true
  | .prn _ => true
  | .cmp _ _ => true
  | .jmp _ => true
  | .jeq _ => true
  | .jne _ => true
  | .halt op => !recognised op

/-- The operand byte selects a register (rule R53). -/
def selectsRegister (b : Byte) : Bool :=
  b.toNat ≤ 7

/-- No register operand of the instruction is one of the reserved values 8 to 255 (rules R53, R59). -/
def Instr.operandsLegal : Instr → Bool
  | .ldi reg _ => selectsRegister reg
  | .prn reg => selectsRegister reg
  | .cmp regA regB => selectsRegister regA && selectsRegister regB
  | .jmp reg => selectsRegister reg
  | .jeq reg => selectsRegister reg
  | .jne reg => selectsRegister reg
  | .halt _ => true

end Sys2Proof
end

