-- ==== Sys2Proof/Safety.lean ====
section
/-! DEFINITION. Runs and what they are judged by (spec/00_scope.md rules R6, R7; spec/40_fetch_decode_execute.md rules
R77, R80; spec/60_exceptions.md rule R125). -/

namespace Sys2Proof.Machine

/-- The spec's own step relation: defined only for a state with RUN = RUNNING (rules R70, R77). -/
def TakesStep (s t : State) : Prop :=
  s.run = .running ∧ step s = .next t

/-- t is one of the states S0, S1, S2, … of the run that starts at s (rule R80). -/
inductive Reaches (s : State) : State → Prop where
  | start : Reaches s s
  | tail {t u : State} : Reaches s t → TakesStep t u → Reaches s u

/-- The end of a run (rule R6). -/
def State.completed (s : State) : Bool :=
  s.run == .halted

/-- A failed run: it has not completed (rules R6, R114). -/
def State.failed (s : State) : Bool :=
  s.run == .faulted

/-- What a completed run is observed by (rule R7). -/
structure Observation where
  out : List Byte
  x : Vector Byte 8
  pc : Byte
  fl : Flags
  mem : Memory
deriving DecidableEq, Repr

/-- The observation of a run's end, where it has completed (rules R6, R7). -/
def State.observe (s : State) : Option Observation :=
  if s.completed then some { out := s.out, x := s.x, pc := s.pc, fl := s.fl, mem := s.mem } else none

/-- The invariant of the machine: memory is in canonical form, and FC names a cause exactly while RUN = FAULTED
(rule R24). -/
def State.Inv (s : State) : Prop :=
  Memory.wf s.mem = true ∧ (s.fc.isSome = true ↔ s.run = .faulted)

/-- Exactly one of L, G and E is set (rule R21). -/
def Flags.oneHot (f : Flags) : Bool :=
  (f.l && !f.g && !f.e) || (!f.l && f.g && !f.e) || (!f.l && !f.g && f.e)

/-- The instruction at PC sets PC from a register: a JMP, or a JEQ or JNE that E takes (rules R97 to R99). -/
def State.jumpTaken (s : State) : Bool :=
  fetchOpcode s == opJmp || (fetchOpcode s == opJeq && s.fl.e) || (fetchOpcode s == opJne && !s.fl.e)

/-- The address of the last byte of the instruction at PC, as a number: it may lie above 255 (rules R50, R57). -/
def State.lastByteAddr (s : State) : Nat :=
  s.pc.toNat + (instrLength (fetchOpcode s) - 1)

/-- The conditions of rule R125 on one instruction: if the opcode at PC is recognised, no byte of the instruction lies
above address 255, and its last byte lies at 255 only if it is a JMP or a taken JEQ or JNE; and every register operand
byte is 0 to 7. -/
def State.nextInstrInRange (s : State) : Prop :=
  (recognised (fetchOpcode s) = true →
    s.lastByteAddr ≤ Config.lastAddress ∧ (s.lastByteAddr = Config.lastAddress → s.jumpTaken = true)) ∧
    ∀ i, fetch s = .ok i → i.operandsLegal = true

/-- A correct program: its run from the launch state never faults, whatever RESET_X and RESET_FL are (rule R125). -/
def CorrectProgram (program : List Byte) : Prop :=
  ∀ (p : Config.ResetValues) (s : State), Reaches (State.launch p program) s → s.run ≠ .faulted

end Sys2Proof.Machine
end

