-- ==== Sys2Proof/Certificates/Slice0/Obligations.lean ====
section
/-! DEFINITION. The statements for the provers, each from the rules of spec/ its docstring cites. The spec's own tables
that several statements use stand first, written out from the rules in numbers. -/

namespace Sys2Proof.Statements

open Sys2Proof.Machine

/-- The six recognised opcode bytes, as rule R55 lists them. -/
def sixOpcodes : List Byte := [0x82, 0x47, 0xA7, 0x54, 0x55, 0x56]

/-- The length by opcode byte, as rule R57 gives it. -/
def lengthByOpcode (op : Byte) : Nat :=
  if op = 0x82 ∨ op = 0xA7 then 3
  else if op = 0x47 ∨ op = 0x54 ∨ op = 0x55 ∨ op = 0x56 then 2
  else 1

/-- The byte k places after PC. -/
def byteAfterPc (s : State) (k : Nat) : Byte :=
  s.memRead (BitVec.ofNat 8 (s.pc.toNat + k))

/-- What rule R114 leaves: RUN = FAULTED, FC = the cause, nothing else written. -/
def faultedWith (s : State) (c : FaultCause) : State :=
  { s with run := .faulted, fc := some c }

/-- Everything but the registers and PC is as before, memory read byte by byte. -/
def sameButRegistersAndPc (s t : State) : Prop :=
  t.fl = s.fl ∧ t.run = s.run ∧ t.fc = s.fc ∧ t.out = s.out ∧ ∀ a, t.memRead a = s.memRead a

/-- The table of rule R112, in the priority of rule R113, read off the bytes at PC. -/
def tabulatedFault (s : State) : Option FaultCause :=
  let pc := s.pc.toNat
  let badIndex (k : Nat) : Bool := 7 < (byteAfterPc s k).toNat
  let threeBytes (bad : Bool) : Option FaultCause :=
    if 254 ≤ pc then some .memRange else if bad then some .regIndex
    else if pc = 253 then some .pcRange else none
  let twoBytes (advances : Bool) : Option FaultCause :=
    if pc = 255 then some .memRange else if badIndex 1 then some .regIndex
    else if pc = 254 ∧ advances = true then some .pcRange else none
  let op := s.memRead s.pc
  if op = 0x82 then threeBytes (badIndex 1)
  else if op = 0x47 then twoBytes true
  else if op = 0xA7 then threeBytes (badIndex 1 || badIndex 2)
  else if op = 0x54 then twoBytes false
  else if op = 0x55 then twoBytes (!s.fl.e)
  else if op = 0x56 then twoBytes s.fl.e
  else none

/-- The "reads" column of rule R12's table. -/
def registersRead (i : Instr) (s : State) : List Nat :=
  match i with
  | .ldi _ _ => []
  | .prn reg => [reg.toNat]
  | .cmp regA regB => [regA.toNat, regB.toNat]
  | .jmp reg => [reg.toNat]
  | .jeq reg => if s.fl.e = true then [reg.toNat] else []
  | .jne reg => if s.fl.e = true then [] else [reg.toNat]
  | .halt _ => []

/-- The "writes" column of rule R12's table. -/
def registersWritten : Instr → List Nat
  | .ldi reg _ => [reg.toNat]
  | .prn _ => []
  | .cmp _ _ => []
  | .jmp _ => []
  | .jeq _ => []
  | .jne _ => []
  | .halt _ => []

/-- The two states agree on everything but the flags. -/
def agreeButFlags (t u : State) : Prop :=
  u.x = t.x ∧ u.pc = t.pc ∧ u.run = t.run ∧ u.fc = t.fc ∧ u.mem = t.mem ∧ u.out = t.out

/-- The instruction is a CMP. -/
def isCompare : Instr → Bool
  | .ldi _ _ => false
  | .prn _ => false
  | .cmp _ _ => true
  | .jmp _ => false
  | .jeq _ => false
  | .jne _ => false
  | .halt _ => false

/-- The instruction is a JEQ or a JNE. -/
def isConditional : Instr → Bool
  | .ldi _ _ => false
  | .prn _ => false
  | .cmp _ _ => false
  | .jmp _ => false
  | .jeq _ => true
  | .jne _ => true
  | .halt _ => false

/-- t is a state that the run from s reaches without a fault; `written` lists the registers the run has written on the way, and `compared` says
whether it has executed a CMP. -/
inductive ReachesHaving (s : State) : List Nat → Bool → State → Prop where
  | start : ReachesHaving s [] false s
  | tail {written : List Nat} {compared : Bool} {t u : State} {i : Instr} : ReachesHaving s written compared t →
      fetch t = .ok i → TakesStep t u → u.run ≠ .faulted →
      ReachesHaving s (registersWritten i ++ written) (compared || isCompare i) u

/-- The last two conditions of rule R125 on one instruction: the registers it reads have been written, and if it is a
JEQ or JNE then a CMP has executed. -/
def usesOnlySetValues (written : List Nat) (compared : Bool) (s : State) : Prop :=
  ∀ i, fetch s = .ok i →
    (∀ r ∈ registersRead i s, r ∈ written) ∧ (isConditional i = true → compared = true)

/-- The text is empty, or its last line is ended: what comes after it starts a line. -/
def endsLines (text : List Char) : Prop :=
  text = [] ∨ text.getLast? = some '\n'

/-- A byte as a line of a program text: eight binary digits, most significant first (rules R4, R63). -/
def byteLine (b : Byte) : List Char :=
  (List.range 8).map (fun k => if b.getLsbD (7 - k) then '1' else '0') ++ ['\n']

/-- The number a binary token writes, each digit at its weight (rule R65). -/
def tokenValue (token : List Char) : Nat :=
  ((List.range token.length).map fun k =>
    if token[k]? = some '1' then 2 ^ (token.length - 1 - k) else 0).sum

end Sys2Proof.Statements

open Sys2Proof Sys2Proof.Machine Sys2Proof.Statements

/-- Decode and encode agree (rules R50, R51, R55, R56): every well-formed instruction, with every operand byte, decodes
from its encoding, whatever bytes follow; and whatever decodes is well formed and was exactly its encoding, so no byte
is dropped and no word has two meanings. -/
def Obligations.DecodeAndEncodeAgree : Prop :=
  (∀ (i : Instr) (rest : List Byte), i.wf = true → decode (encode i ++ rest) = .ok (i, rest)) ∧
  ∀ (bytes rest : List Byte) (i : Instr),
    decode bytes = .ok (i, rest) → i.wf = true ∧ bytes = encode i ++ rest

/-- The opcode map (rules R55, R56): the six opcode bytes, in the binary of the spec's table, and halt for every other. -/
def Obligations.OpcodeMapIsTheSpecs : Prop :=
  ∀ (op1 op2 : Byte) (rest : List Byte),
    decode (0b10000010 :: op1 :: op2 :: rest) = .ok (.ldi op1 op2, rest) ∧
    decode (0b01000111 :: op1 :: rest) = .ok (.prn op1, rest) ∧
    decode (0b10100111 :: op1 :: op2 :: rest) = .ok (.cmp op1 op2, rest) ∧
    decode (0b01010100 :: op1 :: rest) = .ok (.jmp op1, rest) ∧
    decode (0b01010101 :: op1 :: rest) = .ok (.jeq op1, rest) ∧
    decode (0b01010110 :: op1 :: rest) = .ok (.jne op1, rest) ∧
    ∀ ir : Byte, ir ∉ sixOpcodes → decode (ir :: rest) = .ok (.halt ir, rest)

/-- The length of an instruction is its opcode byte's (rule R57): the decoder consumes exactly so many bytes, and
rejects only a string that is shorter. -/
def Obligations.LengthIsTheOpcodeBytes : Prop :=
  ∀ (ir : Byte) (rest : List Byte),
    (lengthByOpcode ir ≤ rest.length + 1 →
      ∃ i, decode (ir :: rest) = .ok (i, rest.drop (lengthByOpcode ir - 1))) ∧
    (rest.length + 1 < lengthByOpcode ir → ∃ e, decode (ir :: rest) = .error e)

/-- A few words of spec/95_test_vectors.md decode to what they stand for (vectors L1, P-1, C-8, J-1, J-9, J-14, H-5). -/
def Obligations.VectorWordsDecode : Prop :=
  decodeTableWord 24 0x080082 = some (.ldi 0 8) ∧
  decodeTableWord 16 0x0047 = some (.prn 0) ∧
  decodeTableWord 24 0x0001A7 = some (.cmp 1 0) ∧
  decodeTableWord 16 0x0154 = some (.jmp 1) ∧
  decodeTableWord 16 0x0255 = some (.jeq 2) ∧
  decodeTableWord 16 0x0256 = some (.jne 2) ∧
  decodeTableWord 8 0x80 = some (.halt 0x80)

/-- A step runs the decoded instruction (rule R70): where a RUNNING unit has a well-formed instruction's bytes in the
cells from PC up, its step is the instruction's meaning at that state. Nothing is added around it. -/
def Obligations.StepRunsTheInstructionInMemory : Prop :=
  ∀ (s : State) (i : Instr), s.run = .running → i.wf = true →
    (∀ (k : Nat) (h : k < (encode i).length),
      s.pc.toNat + k ≤ 255 ∧ byteAfterPc s k = (encode i)[k]) →
    step s = exec i s

/-- LDI (rule R85): its encoding; each fault with its condition, in the order of the checks; otherwise X[r] is the
immediate byte, PC advances by 3, and nothing else changes. -/
def Obligations.LdiFollowsItsRule : Prop :=
  ∀ (s : State) (reg imm8 : Byte),
    encode (.ldi reg imm8) = [0b10000010, reg, imm8] ∧
    (254 ≤ s.pc.toNat → exec (.ldi reg imm8) s = .next (faultedWith s .memRange)) ∧
    (s.pc.toNat ≤ 253 → 7 < reg.toNat → exec (.ldi reg imm8) s = .next (faultedWith s .regIndex)) ∧
    (s.pc.toNat = 253 → reg.toNat ≤ 7 → exec (.ldi reg imm8) s = .next (faultedWith s .pcRange)) ∧
    (s.pc.toNat ≤ 252 → ∀ r : Fin 8, reg.toNat = r.val →
      ∃ t, exec (.ldi reg imm8) s = .next t ∧
        t.x[r] = imm8 ∧ (∀ q : Fin 8, q ≠ r → t.x[q] = s.x[q]) ∧
        t.pc.toNat = s.pc.toNat + 3 ∧ sameButRegistersAndPc s t)

/-- PRN (rule R88): its encoding; each fault with its condition, in the order of the checks, with nothing emitted;
otherwise X[r] is appended to OUT, PC advances by 2, and nothing else changes. -/
def Obligations.PrnFollowsItsRule : Prop :=
  ∀ (s : State) (reg : Byte),
    encode (.prn reg) = [0b01000111, reg] ∧
    (s.pc.toNat = 255 → exec (.prn reg) s = .next (faultedWith s .memRange)) ∧
    (s.pc.toNat ≤ 254 → 7 < reg.toNat → exec (.prn reg) s = .next (faultedWith s .regIndex)) ∧
    (s.pc.toNat = 254 → reg.toNat ≤ 7 → exec (.prn reg) s = .next (faultedWith s .pcRange)) ∧
    (s.pc.toNat ≤ 253 → ∀ r : Fin 8, reg.toNat = r.val →
      ∃ t, exec (.prn reg) s = .next t ∧
        t.out = s.out ++ [s.x[r]] ∧ t.pc.toNat = s.pc.toNat + 2 ∧
        t.x = s.x ∧ t.fl = s.fl ∧ t.run = s.run ∧ t.fc = s.fc ∧ ∀ a, t.memRead a = s.memRead a)

/-- CMP (rules R92, R93): its encoding; each fault with its condition, in the order of the checks, with FL not written;
otherwise all three flags are those of the unsigned comparison, FL8 is 4, 2 or 1, PC advances by 3, and nothing else
changes. -/
def Obligations.CmpFollowsItsRules : Prop :=
  ∀ (s : State) (regA regB : Byte),
    encode (.cmp regA regB) = [0b10100111, regA, regB] ∧
    (254 ≤ s.pc.toNat → exec (.cmp regA regB) s = .next (faultedWith s .memRange)) ∧
    (s.pc.toNat ≤ 253 → 7 < regA.toNat ∨ 7 < regB.toNat →
      exec (.cmp regA regB) s = .next (faultedWith s .regIndex)) ∧
    (s.pc.toNat = 253 → regA.toNat ≤ 7 → regB.toNat ≤ 7 →
      exec (.cmp regA regB) s = .next (faultedWith s .pcRange)) ∧
    (s.pc.toNat ≤ 252 → ∀ a b : Fin 8, regA.toNat = a.val → regB.toNat = b.val →
      ∃ t, exec (.cmp regA regB) s = .next t ∧
        (s.x[a].toNat < s.x[b].toNat → t.fl = ⟨true, false, false⟩ ∧ t.fl8 = 0b00000100) ∧
        (s.x[b].toNat < s.x[a].toNat → t.fl = ⟨false, true, false⟩ ∧ t.fl8 = 0b00000010) ∧
        (s.x[a].toNat = s.x[b].toNat → t.fl = ⟨false, false, true⟩ ∧ t.fl8 = 0b00000001) ∧
        t.pc.toNat = s.pc.toNat + 3 ∧
        t.x = s.x ∧ t.run = s.run ∧ t.fc = s.fc ∧ t.out = s.out ∧ ∀ a, t.memRead a = s.memRead a)

/-- JMP (rule R97): its encoding; MEM_RANGE at 255 and REG_INDEX above 7, never PC_RANGE; otherwise PC is X[r], also at
address 254, and nothing else changes. -/
def Obligations.JmpFollowsItsRule : Prop :=
  ∀ (s : State) (reg : Byte),
    encode (.jmp reg) = [0b01010100, reg] ∧
    (s.pc.toNat = 255 → exec (.jmp reg) s = .next (faultedWith s .memRange)) ∧
    (s.pc.toNat ≤ 254 → 7 < reg.toNat → exec (.jmp reg) s = .next (faultedWith s .regIndex)) ∧
    (s.pc.toNat ≤ 254 → ∀ r : Fin 8, reg.toNat = r.val →
      ∃ t, exec (.jmp reg) s = .next t ∧ t.pc = s.x[r] ∧ t.x = s.x ∧ sameButRegistersAndPc s t)

/-- JEQ (rule R98): its encoding; its faults, REG_INDEX whether or not the jump is taken and PC_RANGE only when it is
not; PC is X[r] when E = 1, also at address 254, and PC + 2 when E = 0; nothing else changes. -/
def Obligations.JeqFollowsItsRule : Prop :=
  ∀ (s : State) (reg : Byte),
    encode (.jeq reg) = [0b01010101, reg] ∧
    (s.pc.toNat = 255 → exec (.jeq reg) s = .next (faultedWith s .memRange)) ∧
    (s.pc.toNat ≤ 254 → 7 < reg.toNat → exec (.jeq reg) s = .next (faultedWith s .regIndex)) ∧
    (s.pc.toNat = 254 → reg.toNat ≤ 7 → s.fl.e = false →
      exec (.jeq reg) s = .next (faultedWith s .pcRange)) ∧
    (s.pc.toNat ≤ 254 → s.fl.e = true → ∀ r : Fin 8, reg.toNat = r.val →
      ∃ t, exec (.jeq reg) s = .next t ∧ t.pc = s.x[r] ∧ t.x = s.x ∧ sameButRegistersAndPc s t) ∧
    (s.pc.toNat ≤ 253 → s.fl.e = false → reg.toNat ≤ 7 →
      ∃ t, exec (.jeq reg) s = .next t ∧ t.pc.toNat = s.pc.toNat + 2 ∧ t.x = s.x ∧
        sameButRegistersAndPc s t)

/-- JNE (rule R99): as JEQ with the sense of E inverted; and of JEQ and JNE with the same operand at the same address
exactly one is taken: it does what JMP does, the other advances by 2. -/
def Obligations.JneFollowsItsRule : Prop :=
  ∀ (s : State) (reg : Byte),
    encode (.jne reg) = [0b01010110, reg] ∧
    (s.pc.toNat = 255 → exec (.jne reg) s = .next (faultedWith s .memRange)) ∧
    (s.pc.toNat ≤ 254 → 7 < reg.toNat → exec (.jne reg) s = .next (faultedWith s .regIndex)) ∧
    (s.pc.toNat = 254 → reg.toNat ≤ 7 → s.fl.e = true →
      exec (.jne reg) s = .next (faultedWith s .pcRange)) ∧
    (s.pc.toNat ≤ 254 → s.fl.e = false → ∀ r : Fin 8, reg.toNat = r.val →
      ∃ t, exec (.jne reg) s = .next t ∧ t.pc = s.x[r] ∧ t.x = s.x ∧ sameButRegistersAndPc s t) ∧
    (s.pc.toNat ≤ 253 → s.fl.e = true → reg.toNat ≤ 7 →
      ∃ t, exec (.jne reg) s = .next t ∧ t.pc.toNat = s.pc.toNat + 2 ∧ t.x = s.x ∧
        sameButRegistersAndPc s t) ∧
    (s.pc.toNat ≤ 253 → reg.toNat ≤ 7 →
      (exec (.jeq reg) s = exec (.jmp reg) s ∧ exec (.jne reg) s = .next { s with pc := s.pc + 2 }) ∨
      (exec (.jne reg) s = exec (.jmp reg) s ∧ exec (.jeq reg) s = .next { s with pc := s.pc + 2 }))

/-- The halt (rule R105): its one byte; RUN becomes HALTED and nothing else is written, at every address; and a RUNNING
unit whose byte at PC is not one of the six does exactly this, at 254 and 255 too. -/
def Obligations.HaltFollowsItsRule : Prop :=
  ∀ (s : State) (op : Byte), op ∉ sixOpcodes →
    encode (.halt op) = [op] ∧
    exec (.halt op) s = .next { s with run := .halted } ∧
    (s.run = .running → s.memRead s.pc = op → step s = .next { s with run := .halted })

/-- The outcomes of a step (rule R70): a RUNNING state has exactly one of: a next RUNNING state, after a recognised
opcode; the same state HALTED, after an unrecognised one; the same state FAULTED with FC set, after a fault. -/
def Obligations.StepHasOneOfThreeOutcomes : Prop :=
  ∀ s : State, s.run = .running → ∃ t, step s = .next t ∧
    ((s.memRead s.pc ∈ sixOpcodes ∧ t.run = .running ∧ t.fc = s.fc) ∨
     (s.memRead s.pc ∉ sixOpcodes ∧ t = { s with run := .halted }) ∨
     (s.memRead s.pc ∈ sixOpcodes ∧ ∃ c, t = faultedWith s c))

/-- The fault table, complete (rules R112, R113): a RUNNING unit faults exactly where the table says, with the cause the
table and the priority give, and nowhere else. The table is read off memory, so fetch, decode and execute all count. -/
def Obligations.StepFaultsExactlyAsTabulated : Prop :=
  ∀ s t : State, s.run = .running → step s = .next t →
    (∀ c, tabulatedFault s = some c → t = faultedWith s c) ∧
    (tabulatedFault s = none → t.run ≠ .faulted)

/-- Faults are precise and terminal (rule R114), with the codes of FC (rules R24, R111): the FAULTED state differs from
the state before the instruction in RUN and FC alone, PC at the opcode byte, and the run goes nowhere from it. -/
def Obligations.FaultsArePreciseAndTerminal : Prop :=
  (faultCode none = 0 ∧ faultCode (some .memRange) = 1 ∧ faultCode (some .regIndex) = 2 ∧
    faultCode (some .pcRange) = 3) ∧
  ∀ s t : State, s.run = .running → step s = .next t → t.run = .faulted →
    t.x = s.x ∧ t.pc = s.pc ∧ t.fl = s.fl ∧ t.out = s.out ∧ (∀ a, t.memRead a = s.memRead a) ∧
    (∃ c, t.fc = some c) ∧ t.faultCausePort ≠ 0 ∧ ∀ u, Reaches t u → u = t

/-- HALTED and FAULTED are fixed points (rules R23, R77 and the spec's vectors H-11, H-12): no step of the spec's leaves
them, `step` answers the same state (the model's reading, log entry 4), and reset is the way out (rule R131). -/
def Obligations.StoppedStatesStayUntilReset : Prop :=
  ∀ (s : State) (p : Config.ResetValues), s.run ≠ .running →
    step s = .next s ∧ (¬ ∃ t, TakesStep s t) ∧ (s.assertReset p).run = .running

/-- Every step keeps the invariant: memory stays in canonical form, and FC names a cause exactly while RUN = FAULTED
(rule R24). -/
def Obligations.StepKeepsInvariant : Prop :=
  ∀ s t : State, s.Inv → step s = .next t → t.Inv

/-- The launch state of every program, for every value of the open parameters, and the state after reset meet the
invariant. -/
def Obligations.LaunchMeetsInvariant : Prop :=
  State.reset.Inv ∧
  ∀ (p : Config.ResetValues) (program : List Byte), program.length ≤ 256 → (State.launch p program).Inv

/-- Memory is constant from the release of reset on (rule R35): `MemWrite` sets one cell and no other; no instruction
changes a cell; and every state a run reaches holds IMAGE, for every program and every value of the open parameters. -/
def Obligations.MemoryIsTheImageThroughoutARun : Prop :=
  (∀ (m : Memory) (a v b : Byte), Memory.wf m = true →
    Memory.read (Memory.write m a v) b = if b = a then v else Memory.read m b) ∧
  (∀ (i : Instr) (s t : State), exec i s = .next t → t.mem = s.mem) ∧
  ∀ (p : Config.ResetValues) (program : List Byte) (s : State), program.length ≤ 256 →
    Reaches (State.launch p program) s → ∀ a : Byte, s.memRead a = program.getD a.toNat 0

/-- Which instruction touches which register, complete (rule R12): a register not in the "writes" column keeps its
value; a register not in the "reads" column has no influence on anything but itself; an operand byte above 7 selects no
register, and the instruction faults. -/
def Obligations.RegistersTouchedAreTheTables : Prop :=
  ∀ (i : Instr) (s t : State), exec i s = .next t →
    (i.operandsLegal = false → t.run = .faulted ∧ t.x = s.x) ∧
    (∀ q : Fin 8, q.val ∉ registersWritten i → t.x[q] = s.x[q]) ∧
    ∀ (q : Fin 8) (v : Byte) (u : State), q.val ∉ registersRead i s →
      exec i { s with x := s.x.set q v } = .next u →
        u.pc = t.pc ∧ u.fl = t.fl ∧ u.run = t.run ∧ u.fc = t.fc ∧ u.mem = t.mem ∧ u.out = t.out ∧
        ∀ r : Fin 8, r ≠ q → u.x[r] = t.x[r]

/-- Writers and readers of each flag, complete (rule R20): only CMP writes a flag; L and G are read by no instruction;
E is read by JEQ and JNE alone. -/
def Obligations.FlagsAreWrittenByCmpAndReadAsTabulated : Prop :=
  ∀ (i : Instr) (s t : State), exec i s = .next t →
    ((∀ a b, i ≠ .cmp a b) → t.fl = s.fl) ∧
    (∀ (l g : Bool) (u : State), exec i { s with fl := { l := l, g := g, e := s.fl.e } } = .next u →
      agreeButFlags t u) ∧
    ((∀ reg, i ≠ .jeq reg ∧ i ≠ .jne reg) → ∀ (f : Flags) (u : State),
      exec i { s with fl := f } = .next u → agreeButFlags t u)

/-- OUT (rule R25): empty at reset; extended only by PRN, by the register's value; never shortened along a run; never
read by the unit. -/
def Obligations.OutIsExtendedOnlyByPrn : Prop :=
  (∀ (p : Config.ResetValues) (program : List Byte), (State.launch p program).out = []) ∧
  (∀ (i : Instr) (s t : State), exec i s = .next t →
    (t.out = s.out ∨
      ∃ (reg : Byte) (r : Fin 8), i = .prn reg ∧ reg.toNat = r.val ∧ t.out = s.out ++ [s.x[r]]) ∧
    ∀ (other : List Byte) (u : State), exec i { s with out := other } = .next u →
      u = { t with out := other ++ t.out.drop s.out.length }) ∧
  ∀ s t : State, Reaches s t → ∃ more, t.out = s.out ++ more

/-- The output port (rules R31, R90): a step strobes a value exactly when it is a PRN that completes, and the value is
the register's. -/
def Obligations.OutputPortStrobesExactlyForPrn : Prop :=
  ∀ (i : Instr) (s t : State), s.run = .running → exec i s = .next t → ∀ v : Byte,
    (outStrobe s t = some v ↔
      ∃ (reg : Byte) (r : Fin 8), i = .prn reg ∧ reg.toNat = r.val ∧ t.run = .running ∧ v = s.x[r])

/-- PC after the step, complete (rule R16): the advance by 3 or 2 as a sum of numbers, so that it never wraps; the jump
targets; unchanged after a halt or a fault. -/
def Obligations.PcAfterAStepIsTheTables : Prop :=
  ∀ s t : State, s.run = .running → step s = .next t →
    (t.run ≠ .running → t.pc = s.pc) ∧
    (s.memRead s.pc ∉ sixOpcodes → t.pc = s.pc) ∧
    (t.run = .running →
      (s.memRead s.pc = 0x82 → t.pc.toNat = s.pc.toNat + 3) ∧
      (s.memRead s.pc = 0x47 → t.pc.toNat = s.pc.toNat + 2) ∧
      (s.memRead s.pc = 0xA7 → t.pc.toNat = s.pc.toNat + 3) ∧
      (s.memRead s.pc = 0x54 → ∃ r : Fin 8, (byteAfterPc s 1).toNat = r.val ∧ t.pc = s.x[r]) ∧
      (s.memRead s.pc = 0x55 → s.fl.e = true →
        ∃ r : Fin 8, (byteAfterPc s 1).toNat = r.val ∧ t.pc = s.x[r]) ∧
      (s.memRead s.pc = 0x55 → s.fl.e = false → t.pc.toNat = s.pc.toNat + 2) ∧
      (s.memRead s.pc = 0x56 → s.fl.e = false →
        ∃ r : Fin 8, (byteAfterPc s 1).toNat = r.val ∧ t.pc = s.x[r]) ∧
      (s.memRead s.pc = 0x56 → s.fl.e = true → t.pc.toNat = s.pc.toNat + 2))

/-- Which accesses reach memory, complete (rule R36): a step reads MEM[PC] and the operand bytes its opcode has, in
ascending order, and no other cell: two RUNNING states that agree on those cells take the same step, whatever else
memory holds. -/
def Obligations.StepReadsOnlyItsInstructionBytes : Prop :=
  ∀ s : State, s.run = .running →
    (s.pc.toNat + lengthByOpcode (s.memRead s.pc) ≤ 256 →
      s.fetchAddresses.map BitVec.toNat =
        (List.range (lengthByOpcode (s.memRead s.pc))).map (s.pc.toNat + ·)) ∧
    ∀ (m : Memory) (t : State), step s = .next t →
      (∀ k, k < lengthByOpcode (s.memRead s.pc) → s.pc.toNat + k ≤ 255 →
        Memory.read m (BitVec.ofNat 8 (s.pc.toNat + k)) = byteAfterPc s k) →
      step { s with mem := m } = .next { t with mem := m }

/-- The launch state, complete (rules R29, R133), for every value of RESET_X and RESET_FL and every program of at most
256 bytes. -/
def Obligations.LaunchStateIsTheSpecs : Prop :=
  ∀ (p : Config.ResetValues) (program : List Byte), program.length ≤ 256 →
    (State.launch p program).x = p.x ∧ (State.launch p program).pc = 0 ∧
    (State.launch p program).fl = ⟨p.l, p.g, p.e⟩ ∧ (State.launch p program).run = .running ∧
    (State.launch p program).fc = none ∧ (State.launch p program).out = [] ∧
    (∀ (a : Byte) (h : a.toNat < program.length), (State.launch p program).memRead a = program[a.toNat]) ∧
    ∀ a : Byte, program.length ≤ a.toNat → (State.launch p program).memRead a = 0

/-- The boot sequence (rules R130 to R133, R135): reset leaves memory as it was; reset and then the load of all 256
cells give the launch state, from whatever state and memory contents before. -/
def Obligations.BootGivesTheLaunchStateFromAnyState : Prop :=
  ∀ (p : Config.ResetValues) (program : List Byte) (s : State),
    program.length ≤ 256 → Memory.wf s.mem = true →
      (s.assertReset p).mem = s.mem ∧ (s.assertReset p).hostLoad program = State.launch p program

/-- The empty program (rule R140): a text with no parsable line is a valid load, all of memory is zero, and the run
halts in its first step at PC = 0 with an empty OUT. -/
def Obligations.EmptyProgramHaltsInItsFirstStep : Prop :=
  ∀ (p : Config.ResetValues) (text : List Char), textBytes text = [] →
    ∃ s, bootFrom p (some text) = .ok s ∧ (∀ a, s.memRead a = 0) ∧
      s.pc = 0 ∧ s.out = [] ∧ step s = .next { s with run := .halted }

/-- The program text (rules R63, R64): bytes written one a line as eight binary digits load as those bytes, in file
order, whatever text comes after them. -/
def Obligations.BinaryLinesLoadInFileOrder : Prop :=
  ∀ (bytes : List Byte) (text : List Char),
    textBytes ((bytes.map byteLine).flatten ++ text) = bytes ++ textBytes text

/-- A line that does not parse yields no byte and leaves no gap (rules R64, R137), wherever it stands: a first or middle
line can be taken out with its line end, and a last line that is not ended can be taken out, and the text stands for
the same bytes. -/
def Obligations.UnparsableLinesLeaveNoGap : Prop :=
  ∀ before line after : List Char, endsLines before → '\n' ∉ line → lineByte line = none →
    textBytes (before ++ line ++ '\n' :: after) = textBytes (before ++ after) ∧
    textBytes (before ++ line) = textBytes before

/-- The token grammar (rule R65, with the comment and the whitespace of rule R63): a line yields a byte if and only if
what is left of it after comment stripping and trimming is 1 to 8 characters, each 0 or 1, and the byte is the binary
number; so a token with whitespace inside yields none. Which characters are whitespace is the model's (log entry 13). -/
def Obligations.TokenGrammarIsOneToEightBinaryDigits : Prop :=
  ∀ (left token right comment : List Char) (v : Byte),
    left.all isSpace = true → right.all isSpace = true →
    '#' ∉ token → (∀ c, token.head? = some c → isSpace c = false) →
    (∀ c, token.getLast? = some c → isSpace c = false) → (comment = [] ∨ comment.head? = some '#') →
    (lineByte (left ++ token ++ right ++ comment) = some v ↔
      1 ≤ token.length ∧ token.length ≤ 8 ∧ (∀ c ∈ token, c = '0' ∨ c = '1') ∧
      v.toNat = tokenValue token)

/-- Capacity and missing source (rules R138, R139): more than 256 bytes refuse the load, a missing source too; up to 256
bytes start a run from the launch state. -/
def Obligations.LoadIsRefusedOnlyAboveCapacity : Prop :=
  ∀ (p : Config.ResetValues) (text : List Char),
    (256 < (textBytes text).length → bootFrom p (some text) = .error .overflow) ∧
    ((textBytes text).length ≤ 256 → bootFrom p (some text) = .ok (State.launch p (textBytes text))) ∧
    bootFrom p none = .error .sourceNotFound

/-- The sink's text (rule R89): each value is one line, its decimal digits and the line end; the digits write the value
in base 10, without a leading zero, and 0 is the one digit 0; the lines stand in the order of OUT, so that OUT can be
read back. The line-end character is the model's (log entry 14). -/
def Obligations.SinkTextDeterminesOut : Prop :=
  (∀ v : Byte, (decimal v).foldl (fun n c => 10 * n + (c.toNat - '0'.toNat)) 0 = v.toNat ∧
    (∀ c ∈ decimal v, '0' ≤ c ∧ c ≤ '9') ∧ (v ≠ 0 → (decimal v).head? ≠ some '0')) ∧
  decimal 0 = ['0'] ∧
  (∀ v : Byte, sinkText [v] = decimal v ++ ['\n']) ∧
  (∀ (before after : List Byte), sinkText (before ++ after) = sinkText before ++ sinkText after) ∧
  ∀ out other : List Byte, sinkText out = sinkText other → out = other

/-- The range conditions of rule R125 are exact for one step and sufficient for a run (rules R112, R125): a RUNNING
unit's step does not fault if and only if the instruction at PC meets them; and if at every RUNNING state a run reaches
the instruction at PC meets them, then no state of the run is FAULTED. -/
def Obligations.RunInRangeNeverFaults : Prop :=
  ∀ s : State, s.run = .running →
    (∀ t, step s = .next t → (t.run ≠ .faulted ↔ s.nextInstrInRange)) ∧
    ((∀ t, Reaches s t → t.run = .running → t.nextInstrInRange) → ∀ u, Reaches s u → u.run ≠ .faulted)

/-- The model's own interface: a well-formed instruction's table word, placed by `withFetchWord`, is what the decoder
reads from the word and what the next step runs, from every state with room for it. -/
def Obligations.PlacedWordIsDecodedAndRun : Prop :=
  ∀ (s : State) (i : Instr), Memory.wf s.mem = true → i.wf = true → s.pc.toNat + i.length ≤ 256 →
    decodeTableWord (8 * i.length) (tableWord (encode i)) = some i ∧
    step (s.withFetchWord (8 * i.length) (tableWord (encode i))) =
      exec i (s.withFetchWord (8 * i.length) (tableWord (encode i)))

/-- After any CMP exactly one flag is set (rules R21, R93), and it stays so: whatever a step does, flags of which
exactly one is set stay flags of which exactly one is set. -/
def Obligations.FlagsStayOneHotFromTheFirstCmp : Prop :=
  ∀ s t : State, step s = .next t →
    (s.run = .running → s.memRead s.pc = 0xA7 → t.run = .running → t.fl.oneHot = true) ∧
    (s.fl.oneHot = true → t.fl.oneHot = true)

/-- The sufficient conditions of rule R125, all together, on the run from one launch state (one value of RESET_X and
RESET_FL): every instruction executed meets the range conditions, reads only registers that LDI has written, and a CMP
executes before the first JEQ or JNE. Then the program is correct: its run faults for no value of RESET_X and RESET_FL;
and each run goes through the same addresses with the same output. -/
def Obligations.SufficientConditionsMakeAProgramCorrect : Prop :=
  ∀ (p : Config.ResetValues) (program : List Byte), program.length ≤ 256 →
    (∀ (written : List Nat) (compared : Bool) (t : State),
      ReachesHaving (State.launch p program) written compared t → t.run = .running →
        t.nextInstrInRange ∧ usesOnlySetValues written compared t) →
    CorrectProgram program ∧
    ∀ (q : Config.ResetValues) (u : State), Reaches (State.launch q program) u →
      ∃ t, Reaches (State.launch p program) t ∧
        u.pc = t.pc ∧ u.run = t.run ∧ u.fc = t.fc ∧ u.out = t.out ∧ u.mem = t.mem

/-- FC (rule R24): its four codes; NONE at launch and, along every run, whenever RUN is not FAULTED; written only by a
step that faults; and read by no instruction, RUN neither (rule R125): whatever they hold, each instruction does the
same to everything else. -/
def Obligations.FaultCauseFollowsItsRule : Prop :=
  (∀ s : State,
    (s.fc = none → s.faultCausePort = 0) ∧ (s.fc = some .memRange → s.faultCausePort = 1) ∧
    (s.fc = some .regIndex → s.faultCausePort = 2) ∧ (s.fc = some .pcRange → s.faultCausePort = 3)) ∧
  (∀ (p : Config.ResetValues) (program : List Byte) (s : State),
    Reaches (State.launch p program) s → s.run ≠ .faulted → s.faultCausePort = 0) ∧
  (∀ s t : State, step s = .next t → t.fc = s.fc ∨ (s.run = .running ∧ t.run = .faulted)) ∧
  ∀ (i : Instr) (s t : State) (run : RunState) (fc : Option FaultCause), exec i s = .next t →
    ∃ u, exec i { s with run := run, fc := fc } = .next u ∧
      u.x = t.x ∧ u.pc = t.pc ∧ u.fl = t.fl ∧ u.mem = t.mem ∧ u.out = t.out
end

