-- ==== Sys2Proof/Laws/Operands.lean ====
section
/-! SUPPORT. What the checked helper operations answer, in every case: one lemma per outcome of each, and what an
instruction's end (`orFault`) can be. -/

namespace Sys2Proof.Laws

open Sys2Proof.Machine

@[simp] theorem ok_bind {α β : Type} (a : α) (f : α → Except FaultCause β) : (Except.ok a >>= f) = f a := rfl

@[simp] theorem error_bind {α β : Type} (c : FaultCause) (f : α → Except FaultCause β) :
    ((Except.error c : Except FaultCause α) >>= f) = .error c := rfl

@[simp] theorem pure_eq_ok {α : Type} (a : α) : (pure a : Except FaultCause α) = .ok a := rfl

/-- `Operand(k)`'s address where it is a cell (rule R73). -/
theorem operandAddr_of_le {k : Nat} {s : State} (h : s.pc.toNat + k ≤ 255) :
    operandAddr k s = .ok (BitVec.ofNat 8 (s.pc.toNat + k)) := by
  simp only [operandAddr, Config.lastAddress]
  rw [if_neg (by omega)]

/-- `Operand(k)` above address 255 (rule R73). -/
theorem operandAddr_of_gt {k : Nat} {s : State} (h : 255 < s.pc.toNat + k) :
    operandAddr k s = .error .memRange := by
  simp only [operandAddr, Config.lastAddress]
  rw [if_pos (by omega)]

/-- `Operand(k)` where its address is a cell: the byte there (rule R73). -/
theorem operand_of_le {k : Nat} {s : State} (h : s.pc.toNat + k ≤ 255) :
    operand k s = .ok (s.memRead (BitVec.ofNat 8 (s.pc.toNat + k))) := by
  rw [operand, operandAddr_of_le h]
  rfl

/-- `Operand(k)` above address 255 reads nothing (rule R73). -/
theorem operand_of_gt {k : Nat} {s : State} (h : 255 < s.pc.toNat + k) :
    operand k s = .error .memRange := by
  rw [operand, operandAddr_of_gt h]
  rfl

/-- `RegIdx(b)` for the byte of a register (rule R74). -/
theorem regIdx_of_eq {b : Byte} {r : RegNum} (h : b.toNat = r.val) : regIdx b = .ok r := by
  have hr := r.isLt
  simp only [regIdx, Config.lastRegister]
  rw [dif_neg (by omega)]
  simp [h]

/-- `RegIdx(b)` above 7 (rule R74). -/
theorem regIdx_of_gt {b : Byte} (h : 7 < b.toNat) : regIdx b = .error .regIndex := by
  simp only [regIdx, Config.lastRegister]
  rw [dif_pos h]

/-- `RegIdx(b)` answers either a register, whose number the byte is, or REG_INDEX. -/
theorem regIdx_cases (b : Byte) :
    (7 < b.toNat ∧ regIdx b = .error .regIndex) ∨ ∃ r : RegNum, b.toNat = r.val ∧ regIdx b = .ok r := by
  rcases Nat.lt_or_ge 7 b.toNat with h | h
  · exact .inl ⟨h, regIdx_of_gt h⟩
  · exact .inr ⟨⟨b.toNat, by omega⟩, rfl, regIdx_of_eq rfl⟩

/-- `Next(n)` within the address space (rule R75). -/
theorem nextPc_of_le {n : Nat} {s : State} (h : s.pc.toNat + n ≤ 255) :
    nextPc n s = .ok (BitVec.ofNat 8 (s.pc.toNat + n)) := by
  simp only [nextPc, Config.lastAddress]
  rw [if_neg (by omega)]

/-- `Next(n)` above 255 (rule R75). -/
theorem nextPc_of_gt {n : Nat} {s : State} (h : 255 < s.pc.toNat + n) :
    nextPc n s = .error .pcRange := by
  simp only [nextPc, Config.lastAddress]
  rw [if_pos (by omega)]

@[simp] theorem orFault_ok (s t : State) : orFault s (.ok t) = .next t := rfl

@[simp] theorem orFault_error (s : State) (c : FaultCause) : orFault s (.error c) = .next (s.takeFault c) := rfl

/-- An instruction's end is a next state in every case: every write made, or one fault taken in the state before. -/
theorem orFault_next {s t : State} {result : Except FaultCause State} (h : orFault s result = .next t) :
    result = .ok t ∨ ∃ c, result = .error c ∧ t = s.takeFault c := by
  cases result with
  | ok u => exact .inl (by rw [orFault_ok, Host.Outcome.next.injEq] at h; rw [h])
  | error c => exact .inr ⟨c, rfl, by rw [orFault_error, Host.Outcome.next.injEq] at h; exact h.symm⟩

end Sys2Proof.Laws
end

