-- ==== Sys2Proof/Laws/State.lean ====
section
/-! SUPPORT. One lemma per field per update of State, true by definition, so that no later proof unfolds a record
update; and what each update leaves of a memory read or a register read. -/

namespace Sys2Proof.Machine

variable (s : State)

@[simp] theorem State.writeReg_x (r : RegNum) (v : Byte) : (s.writeReg r v).x = s.x.set r v := rfl
@[simp] theorem State.writeReg_pc (r : RegNum) (v : Byte) : (s.writeReg r v).pc = s.pc := rfl
@[simp] theorem State.writeReg_fl (r : RegNum) (v : Byte) : (s.writeReg r v).fl = s.fl := rfl
@[simp] theorem State.writeReg_run (r : RegNum) (v : Byte) : (s.writeReg r v).run = s.run := rfl
@[simp] theorem State.writeReg_fc (r : RegNum) (v : Byte) : (s.writeReg r v).fc = s.fc := rfl
@[simp] theorem State.writeReg_mem (r : RegNum) (v : Byte) : (s.writeReg r v).mem = s.mem := rfl
@[simp] theorem State.writeReg_out (r : RegNum) (v : Byte) : (s.writeReg r v).out = s.out := rfl
@[simp] theorem State.writeReg_memRead (r : RegNum) (v : Byte) (a : Byte) : (s.writeReg r v).memRead a = s.memRead a := rfl

@[simp] theorem State.writePc_x (t : Byte) : (s.writePc t).x = s.x := rfl
@[simp] theorem State.writePc_pc (t : Byte) : (s.writePc t).pc = t := rfl
@[simp] theorem State.writePc_fl (t : Byte) : (s.writePc t).fl = s.fl := rfl
@[simp] theorem State.writePc_run (t : Byte) : (s.writePc t).run = s.run := rfl
@[simp] theorem State.writePc_fc (t : Byte) : (s.writePc t).fc = s.fc := rfl
@[simp] theorem State.writePc_mem (t : Byte) : (s.writePc t).mem = s.mem := rfl
@[simp] theorem State.writePc_out (t : Byte) : (s.writePc t).out = s.out := rfl
@[simp] theorem State.writePc_memRead (t : Byte) (a : Byte) : (s.writePc t).memRead a = s.memRead a := rfl

@[simp] theorem State.writeFlags_x (f : Flags) : (s.writeFlags f).x = s.x := rfl
@[simp] theorem State.writeFlags_pc (f : Flags) : (s.writeFlags f).pc = s.pc := rfl
@[simp] theorem State.writeFlags_fl (f : Flags) : (s.writeFlags f).fl = f := rfl
@[simp] theorem State.writeFlags_run (f : Flags) : (s.writeFlags f).run = s.run := rfl
@[simp] theorem State.writeFlags_fc (f : Flags) : (s.writeFlags f).fc = s.fc := rfl
@[simp] theorem State.writeFlags_mem (f : Flags) : (s.writeFlags f).mem = s.mem := rfl
@[simp] theorem State.writeFlags_out (f : Flags) : (s.writeFlags f).out = s.out := rfl
@[simp] theorem State.writeFlags_memRead (f : Flags) (a : Byte) : (s.writeFlags f).memRead a = s.memRead a := rfl

@[simp] theorem State.emit_x (v : Byte) : (s.emit v).x = s.x := rfl
@[simp] theorem State.emit_pc (v : Byte) : (s.emit v).pc = s.pc := rfl
@[simp] theorem State.emit_fl (v : Byte) : (s.emit v).fl = s.fl := rfl
@[simp] theorem State.emit_run (v : Byte) : (s.emit v).run = s.run := rfl
@[simp] theorem State.emit_fc (v : Byte) : (s.emit v).fc = s.fc := rfl
@[simp] theorem State.emit_mem (v : Byte) : (s.emit v).mem = s.mem := rfl
@[simp] theorem State.emit_out (v : Byte) : (s.emit v).out = s.out ++ [v] := rfl
@[simp] theorem State.emit_memRead (v : Byte) (a : Byte) : (s.emit v).memRead a = s.memRead a := rfl

@[simp] theorem State.takeFault_x (c : FaultCause) : (s.takeFault c).x = s.x := rfl
@[simp] theorem State.takeFault_pc (c : FaultCause) : (s.takeFault c).pc = s.pc := rfl
@[simp] theorem State.takeFault_fl (c : FaultCause) : (s.takeFault c).fl = s.fl := rfl
@[simp] theorem State.takeFault_run (c : FaultCause) : (s.takeFault c).run = .faulted := rfl
@[simp] theorem State.takeFault_fc (c : FaultCause) : (s.takeFault c).fc = some c := rfl
@[simp] theorem State.takeFault_mem (c : FaultCause) : (s.takeFault c).mem = s.mem := rfl
@[simp] theorem State.takeFault_out (c : FaultCause) : (s.takeFault c).out = s.out := rfl
@[simp] theorem State.takeFault_memRead (c : FaultCause) (a : Byte) : (s.takeFault c).memRead a = s.memRead a := rfl

@[simp] theorem State.enterHalted_x : s.enterHalted.x = s.x := rfl
@[simp] theorem State.enterHalted_pc : s.enterHalted.pc = s.pc := rfl
@[simp] theorem State.enterHalted_fl : s.enterHalted.fl = s.fl := rfl
@[simp] theorem State.enterHalted_run : s.enterHalted.run = .halted := rfl
@[simp] theorem State.enterHalted_fc : s.enterHalted.fc = s.fc := rfl
@[simp] theorem State.enterHalted_mem : s.enterHalted.mem = s.mem := rfl
@[simp] theorem State.enterHalted_out : s.enterHalted.out = s.out := rfl
@[simp] theorem State.enterHalted_memRead (a : Byte) : s.enterHalted.memRead a = s.memRead a := rfl

/-- A register that was written reads as the value written. -/
@[simp] theorem State.readReg_writeReg_same (r : RegNum) (v : Byte) : (s.writeReg r v).readReg r = v := by
  simp [State.readReg]

/-- Writing a register leaves every other register alone. -/
theorem State.readReg_writeReg_ne (r q : RegNum) (v : Byte) (h : q ≠ r) :
    (s.writeReg r v).readReg q = s.readReg q := by
  simp [State.readReg, Fin.val_ne_of_ne (Ne.symm h)]

end Sys2Proof.Machine
end

