-- ==== Sys2Proof/Laws/Exec.lean ====
section
/-! SUPPORT. What each meaning can answer, said once: later proofs cite these and do not unfold a meaning. -/

namespace Sys2Proof.Laws

open Sys2Proof.Machine

/-- What LDI answers (rule R85). -/
theorem execLdi_cases (reg imm8 : Byte) (s : State) :
    (254 ≤ s.pc.toNat ∧ execLdi reg imm8 s = .next (s.takeFault .memRange)) ∨
    (s.pc.toNat ≤ 253 ∧ 7 < reg.toNat ∧ execLdi reg imm8 s = .next (s.takeFault .regIndex)) ∨
    (s.pc.toNat = 253 ∧ reg.toNat ≤ 7 ∧ execLdi reg imm8 s = .next (s.takeFault .pcRange)) ∨
    ∃ r : RegNum, s.pc.toNat ≤ 252 ∧ reg.toNat = r.val ∧ execLdi reg imm8 s =
      .next ((s.writeReg r imm8).writePc (BitVec.ofNat 8 (s.pc.toNat + 3))) := by
  have hpc := s.pc.isLt
  rcases Nat.lt_or_ge 255 (s.pc.toNat + 1) with h1 | h1
  · exact .inl ⟨by omega, by simp [execLdi, operandAddr_of_gt h1]⟩
  rcases Nat.lt_or_ge 255 (s.pc.toNat + 2) with h2 | h2
  · exact .inl ⟨by omega, by simp [execLdi, operandAddr_of_le h1, operandAddr_of_gt h2]⟩
  obtain ⟨hr, hi⟩ | ⟨r, hr, hi⟩ := regIdx_cases reg
  · exact .inr (.inl ⟨by omega, hr, by simp [execLdi, operandAddr_of_le h1, operandAddr_of_le h2, hi]⟩)
  have := r.isLt
  rcases Nat.lt_or_ge 255 (s.pc.toNat + 3) with h3 | h3
  · exact .inr (.inr (.inl ⟨by omega, by omega,
      by simp [execLdi, operandAddr_of_le h1, operandAddr_of_le h2, hi, nextPc_of_gt h3]⟩))
  · exact .inr (.inr (.inr ⟨r, by omega, hr,
      by simp [execLdi, operandAddr_of_le h1, operandAddr_of_le h2, hi, nextPc_of_le h3]⟩))

/-- What PRN answers (rule R88). -/
theorem execPrn_cases (reg : Byte) (s : State) :
    (s.pc.toNat = 255 ∧ execPrn reg s = .next (s.takeFault .memRange)) ∨
    (s.pc.toNat ≤ 254 ∧ 7 < reg.toNat ∧ execPrn reg s = .next (s.takeFault .regIndex)) ∨
    (s.pc.toNat = 254 ∧ reg.toNat ≤ 7 ∧ execPrn reg s = .next (s.takeFault .pcRange)) ∨
    ∃ r : RegNum, s.pc.toNat ≤ 253 ∧ reg.toNat = r.val ∧ execPrn reg s =
      .next ((s.emit (s.readReg r)).writePc (BitVec.ofNat 8 (s.pc.toNat + 2))) := by
  have hpc := s.pc.isLt
  rcases Nat.lt_or_ge 255 (s.pc.toNat + 1) with h1 | h1
  · exact .inl ⟨by omega, by simp [execPrn, operandAddr_of_gt h1]⟩
  obtain ⟨hr, hi⟩ | ⟨r, hr, hi⟩ := regIdx_cases reg
  · exact .inr (.inl ⟨by omega, hr, by simp [execPrn, operandAddr_of_le h1, hi]⟩)
  have := r.isLt
  rcases Nat.lt_or_ge 255 (s.pc.toNat + 2) with h2 | h2
  · exact .inr (.inr (.inl ⟨by omega, by omega, by simp [execPrn, operandAddr_of_le h1, hi, nextPc_of_gt h2]⟩))
  · exact .inr (.inr (.inr ⟨r, by omega, hr, by simp [execPrn, operandAddr_of_le h1, hi, nextPc_of_le h2]⟩))

/-- What CMP answers (rule R92). -/
theorem execCmp_cases (regA regB : Byte) (s : State) :
    (254 ≤ s.pc.toNat ∧ execCmp regA regB s = .next (s.takeFault .memRange)) ∨
    (s.pc.toNat ≤ 253 ∧ (7 < regA.toNat ∨ 7 < regB.toNat) ∧
      execCmp regA regB s = .next (s.takeFault .regIndex)) ∨
    (s.pc.toNat = 253 ∧ regA.toNat ≤ 7 ∧ regB.toNat ≤ 7 ∧
      execCmp regA regB s = .next (s.takeFault .pcRange)) ∨
    ∃ a b : RegNum, s.pc.toNat ≤ 252 ∧ regA.toNat = a.val ∧ regB.toNat = b.val ∧ execCmp regA regB s =
      .next ((s.writeFlags (compareFlags (s.readReg a) (s.readReg b))).writePc
        (BitVec.ofNat 8 (s.pc.toNat + 3))) := by
  have hpc := s.pc.isLt
  rcases Nat.lt_or_ge 255 (s.pc.toNat + 1) with h1 | h1
  · exact .inl ⟨by omega, by simp [execCmp, operandAddr_of_gt h1]⟩
  rcases Nat.lt_or_ge 255 (s.pc.toNat + 2) with h2 | h2
  · exact .inl ⟨by omega, by simp [execCmp, operandAddr_of_le h1, operandAddr_of_gt h2]⟩
  obtain ⟨ha, hia⟩ | ⟨a, ha, hia⟩ := regIdx_cases regA
  · exact .inr (.inl ⟨by omega, .inl ha, by simp [execCmp, operandAddr_of_le h1, operandAddr_of_le h2, hia]⟩)
  obtain ⟨hb, hib⟩ | ⟨b, hb, hib⟩ := regIdx_cases regB
  · exact .inr (.inl ⟨by omega, .inr hb, by simp [execCmp, operandAddr_of_le h1, operandAddr_of_le h2, hia, hib]⟩)
  have := a.isLt
  have := b.isLt
  rcases Nat.lt_or_ge 255 (s.pc.toNat + 3) with h3 | h3
  · exact .inr (.inr (.inl ⟨by omega, by omega, by omega,
      by simp [execCmp, operandAddr_of_le h1, operandAddr_of_le h2, hia, hib, nextPc_of_gt h3]⟩))
  · exact .inr (.inr (.inr ⟨a, b, by omega, ha, hb,
      by simp [execCmp, operandAddr_of_le h1, operandAddr_of_le h2, hia, hib, nextPc_of_le h3]⟩))

/-- What JMP answers (rule R97). -/
theorem execJmp_cases (reg : Byte) (s : State) :
    (s.pc.toNat = 255 ∧ execJmp reg s = .next (s.takeFault .memRange)) ∨
    (s.pc.toNat ≤ 254 ∧ 7 < reg.toNat ∧ execJmp reg s = .next (s.takeFault .regIndex)) ∨
    ∃ r : RegNum, s.pc.toNat ≤ 254 ∧ reg.toNat = r.val ∧ execJmp reg s = .next (s.writePc (s.readReg r)) := by
  have hpc := s.pc.isLt
  rcases Nat.lt_or_ge 255 (s.pc.toNat + 1) with h1 | h1
  · exact .inl ⟨by omega, by simp [execJmp, operandAddr_of_gt h1]⟩
  obtain ⟨hr, hi⟩ | ⟨r, hr, hi⟩ := regIdx_cases reg
  · exact .inr (.inl ⟨by omega, hr, by simp [execJmp, operandAddr_of_le h1, hi]⟩)
  · exact .inr (.inr ⟨r, by omega, hr, by simp [execJmp, operandAddr_of_le h1, hi]⟩)

/-- What a conditional jump answers, taken or not (rules R98, R99). -/
theorem conditionalJump_cases (taken : Bool) (reg : Byte) (s : State) :
    (s.pc.toNat = 255 ∧ conditionalJump taken reg s = .next (s.takeFault .memRange)) ∨
    (s.pc.toNat ≤ 254 ∧ 7 < reg.toNat ∧ conditionalJump taken reg s = .next (s.takeFault .regIndex)) ∨
    (s.pc.toNat = 254 ∧ reg.toNat ≤ 7 ∧ taken = false ∧
      conditionalJump taken reg s = .next (s.takeFault .pcRange)) ∨
    (∃ r : RegNum, s.pc.toNat ≤ 254 ∧ reg.toNat = r.val ∧ taken = true ∧
      conditionalJump taken reg s = .next (s.writePc (s.readReg r))) ∨
    (s.pc.toNat ≤ 253 ∧ reg.toNat ≤ 7 ∧ taken = false ∧
      conditionalJump taken reg s = .next (s.writePc (BitVec.ofNat 8 (s.pc.toNat + 2)))) := by
  have hpc := s.pc.isLt
  rcases Nat.lt_or_ge 255 (s.pc.toNat + 1) with h1 | h1
  · exact .inl ⟨by omega, by simp [conditionalJump, operandAddr_of_gt h1]⟩
  obtain ⟨hr, hi⟩ | ⟨r, hr, hi⟩ := regIdx_cases reg
  · exact .inr (.inl ⟨by omega, hr, by simp [conditionalJump, operandAddr_of_le h1, hi]⟩)
  have := r.isLt
  cases taken with
  | true =>
    exact .inr (.inr (.inr (.inl ⟨r, by omega, hr, rfl, by simp [conditionalJump, operandAddr_of_le h1, hi]⟩)))
  | false =>
    rcases Nat.lt_or_ge 255 (s.pc.toNat + 2) with h2 | h2
    · exact .inr (.inr (.inl ⟨by omega, by omega, rfl,
        by simp [conditionalJump, operandAddr_of_le h1, hi, nextPc_of_gt h2]⟩))
    · exact .inr (.inr (.inr (.inr ⟨by omega, by omega, rfl,
        by simp [conditionalJump, operandAddr_of_le h1, hi, nextPc_of_le h2]⟩)))

/-- What the comparison leaves in each flag (rule R93). -/
theorem compareFlags_iff (va vb : Byte) :
    ((compareFlags va vb).l = true ↔ va.toNat < vb.toNat) ∧
    ((compareFlags va vb).g = true ↔ va.toNat > vb.toNat) ∧
    ((compareFlags va vb).e = true ↔ va.toNat = vb.toNat) := by
  simp [compareFlags]

end Sys2Proof.Laws
end

