-- ==== Sys2Proof/Laws/Fetch.lean ====
section
/-! SUPPORT. What fetching answers: no operand for an unrecognised opcode, MEM_RANGE where an operand byte has no cell,
else the decoded instruction; the decoder never runs short of bytes. -/

namespace Sys2Proof.Laws

open Sys2Proof.Machine

theorem instrLength_cases (op : Byte) : instrLength op = 1 ∨ instrLength op = 2 ∨ instrLength op = 3 := by
  unfold instrLength
  split
  · exact .inr (.inr rfl)
  · split
    · exact .inr (.inl rfl)
    · exact .inl rfl

@[simp] theorem fetchOperands_zero (s : State) : fetchOperands s 0 = .ok [] := rfl

theorem fetchOperands_one_of_le {s : State} (h : s.pc.toNat + 1 ≤ 255) :
    fetchOperands s 1 = .ok [s.memRead (BitVec.ofNat 8 (s.pc.toNat + 1))] := by
  simp [fetchOperands, operand_of_le h]

theorem fetchOperands_one_of_gt {s : State} (h : 255 < s.pc.toNat + 1) :
    fetchOperands s 1 = .error .memRange := by
  simp [fetchOperands, operand_of_gt h]

theorem fetchOperands_two_of_le {s : State} (h : s.pc.toNat + 2 ≤ 255) :
    fetchOperands s 2 = .ok [s.memRead (BitVec.ofNat 8 (s.pc.toNat + 1)),
      s.memRead (BitVec.ofNat 8 (s.pc.toNat + 2))] := by
  have h1 : s.pc.toNat + 1 ≤ 255 := by omega
  simp [fetchOperands, operand_of_le h, operand_of_le h1]

theorem fetchOperands_two_of_gt {s : State} (h : 255 < s.pc.toNat + 2) :
    fetchOperands s 2 = .error .memRange := by
  rcases Nat.lt_or_ge 255 (s.pc.toNat + 1) with h1 | h1
  · simp [fetchOperands, operand_of_gt h1]
  · simp [fetchOperands, operand_of_gt h, operand_of_le h1]

/-- Fetching, in one equation by the opcode byte (rules R71 to R73): the decoder's rejection does not arise. -/
theorem fetch_eq (s : State) :
    fetch s =
      if instrLength (fetchOpcode s) = 3 then
        if 253 < s.pc.toNat then .error .memRange
        else .ok (if fetchOpcode s = opLdi then
            .ldi (s.memRead (BitVec.ofNat 8 (s.pc.toNat + 1))) (s.memRead (BitVec.ofNat 8 (s.pc.toNat + 2)))
          else
            .cmp (s.memRead (BitVec.ofNat 8 (s.pc.toNat + 1))) (s.memRead (BitVec.ofNat 8 (s.pc.toNat + 2))))
      else if instrLength (fetchOpcode s) = 2 then
        if 254 < s.pc.toNat then .error .memRange
        else .ok (if fetchOpcode s = opPrn then .prn (s.memRead (BitVec.ofNat 8 (s.pc.toNat + 1)))
          else if fetchOpcode s = opJmp then .jmp (s.memRead (BitVec.ofNat 8 (s.pc.toNat + 1)))
          else if fetchOpcode s = opJeq then .jeq (s.memRead (BitVec.ofNat 8 (s.pc.toNat + 1)))
          else .jne (s.memRead (BitVec.ofNat 8 (s.pc.toNat + 1))))
      else .ok (.halt (fetchOpcode s)) := by
  unfold fetch
  generalize hop : fetchOpcode s = op
  by_cases h3 : op = opLdi ∨ op = opCmp
  · have hl : instrLength op = 3 := by simp [instrLength, h3]
    simp only [hl, if_true, Nat.add_one_sub_one]
    rcases Nat.lt_or_ge 255 (s.pc.toNat + 2) with h2 | h2
    · rw [fetchOperands_two_of_gt h2, if_pos (by omega)]
      rfl
    · rw [fetchOperands_two_of_le h2, if_neg (by omega)]
      rcases h3 with rfl | rfl <;> rfl
  · by_cases h2 : recognised op = true
    · have hl : instrLength op = 2 := by simp [instrLength, h3, h2]
      simp only [hl, if_true, Nat.add_one_sub_one, show (2 : Nat) ≠ 3 by omega, if_false]
      rcases Nat.lt_or_ge 255 (s.pc.toNat + 1) with h1 | h1
      · rw [fetchOperands_one_of_gt h1, if_pos (by omega)]
        rfl
      · rw [fetchOperands_one_of_le h1, if_neg (by omega)]
        simp only [recognised, Bool.or_eq_true, beq_iff_eq] at h2
        rcases h2 with ((((rfl | rfl) | rfl) | rfl) | rfl) | rfl
        · exact absurd (Or.inl rfl) h3
        · rfl
        · exact absurd (Or.inr rfl) h3
        · rfl
        · rfl
        · rfl
    · have hl : instrLength op = 1 := by simp [instrLength, h3, h2]
      simp only [hl, show (1 : Nat) ≠ 3 by omega, show (1 : Nat) ≠ 2 by omega, if_false, Nat.sub_self,
        fetchOperands_zero]
      simp only [recognised, Bool.or_eq_true, beq_iff_eq, not_or] at h2
      obtain ⟨⟨⟨⟨⟨hn1, hn2⟩, hn3⟩, hn4⟩, hn5⟩, hn6⟩ := h2
      simp [decode, hn1, hn2, hn3, hn4, hn5, hn6]

end Sys2Proof.Laws
end

