-- ==== Sys2Proof/Laws/Memory.lean ====
section
/-! SUPPORT. The laws of memory: a read after a write, the canonical form that every write keeps, and that canonical
memories with the same contents are the same list. -/

namespace Sys2Proof.Laws

open Sys2Proof.Machine

theorem readCell_writeCell_same (m : List Host.Cell) (a : Nat) (v : Byte) (low : Nat)
    (hm : canonicalFrom low m = true) : readCell (writeCell m a v) a = v := by
  induction m generalizing low with
  | nil =>
    simp only [writeCell]
    split <;> simp_all [readCell]
  | cons cell rest ih =>
    obtain ⟨k, w⟩ := cell
    simp only [canonicalFrom, Bool.and_eq_true, decide_eq_true_eq] at hm
    have absent : ∀ (rest : List Host.Cell) (low : Nat), a < low → canonicalFrom low rest = true →
        readCell rest a = Config.fillByte := by
      intro rest
      induction rest with
      | nil => intros; rfl
      | cons cell rest ih' =>
        intro low hlow hc
        obtain ⟨k', w'⟩ := cell
        simp only [canonicalFrom, Bool.and_eq_true, decide_eq_true_eq] at hc
        rw [readCell, if_neg (by omega), ih' (k' + 1) (by omega) hc.2]
    simp only [writeCell]
    split
    · split
      · rename_i hak hv
        rw [readCell, if_neg (by omega), absent rest (k + 1) (by omega) hm.2, hv]
      · simp [readCell]
    · split
      · rename_i _ hak
        split
        · rename_i hv
          rw [absent rest (k + 1) (by omega) hm.2, hv]
        · simp [readCell]
      · rename_i _ hne
        rw [readCell, if_neg (by omega), ih (k + 1) hm.2]

/-- A write leaves every other cell alone, whatever the list. -/
theorem readCell_writeCell_ne (m : List Host.Cell) (a b : Nat) (v : Byte) (h : b ≠ a) :
    readCell (writeCell m a v) b = readCell m b := by
  induction m with
  | nil =>
    simp only [writeCell]
    split
    · rfl
    · simp [readCell, Ne.symm h]
  | cons cell rest ih =>
    obtain ⟨k, w⟩ := cell
    simp only [writeCell]
    split
    · split
      · rfl
      · rw [readCell, if_neg (by omega)]
    · split
      · rename_i _ hak
        split
        · rw [readCell, if_neg (by omega)]
        · rw [readCell, if_neg (by omega), readCell, if_neg (by omega)]
      · rw [readCell, readCell, ih]

theorem canonicalFrom_mono {low high : Nat} {m : List Host.Cell} (hle : low ≤ high)
    (hm : canonicalFrom high m = true) : canonicalFrom low m = true := by
  cases m with
  | nil => rfl
  | cons cell rest =>
    obtain ⟨k, w⟩ := cell
    simp only [canonicalFrom, Bool.and_eq_true, decide_eq_true_eq] at hm ⊢
    exact ⟨⟨⟨by omega, hm.1.1.2⟩, hm.1.2⟩, hm.2⟩

theorem canonicalFrom_writeCell (m : List Host.Cell) (a : Nat) (v : Byte) (low : Nat) (hlow : low ≤ a)
    (ha : a < Config.memSize) (hm : canonicalFrom low m = true) : canonicalFrom low (writeCell m a v) = true := by
  induction m generalizing low with
  | nil =>
    simp only [writeCell]
    split
    · rfl
    · rename_i hv
      simp [canonicalFrom, hlow, ha, hv]
  | cons cell rest ih =>
    obtain ⟨k, w⟩ := cell
    have hm' := hm
    simp only [canonicalFrom, Bool.and_eq_true, decide_eq_true_eq] at hm'
    simp only [writeCell]
    split
    · split
      · exact hm
      · rename_i hak hv
        simp only [canonicalFrom, Bool.and_eq_true, decide_eq_true_eq, bne_iff_ne]
        exact ⟨⟨⟨hlow, ha⟩, hv⟩, ⟨⟨by omega, hm'.1.1.2⟩, bne_iff_ne.mp hm'.1.2⟩, hm'.2⟩
    · split
      · rename_i _ hak
        split
        · exact canonicalFrom_mono (by omega) hm'.2
        · rename_i hv
          simp only [canonicalFrom, Bool.and_eq_true, decide_eq_true_eq, bne_iff_ne]
          exact ⟨⟨⟨hlow, ha⟩, hv⟩, hak ▸ hm'.2⟩
      · simp only [canonicalFrom, Bool.and_eq_true, decide_eq_true_eq]
        exact ⟨hm'.1, ih (k + 1) (by omega) hm'.2⟩

/-- Below the first address a canonical list names, every cell holds the fill byte. -/
theorem readCell_below {m : List Host.Cell} {low a : Nat} (ha : a < low) (hm : canonicalFrom low m = true) :
    readCell m a = Config.fillByte := by
  induction m generalizing low with
  | nil => rfl
  | cons cell rest ih =>
    obtain ⟨k, w⟩ := cell
    simp only [canonicalFrom, Bool.and_eq_true, decide_eq_true_eq] at hm
    rw [readCell, if_neg (by omega), ih (by omega) hm.2]

theorem canonicalFrom_ext {m n : List Host.Cell} {low : Nat} (hm : canonicalFrom low m = true)
    (hn : canonicalFrom low n = true) (h : ∀ a, a < Config.memSize → readCell m a = readCell n a) : m = n := by
  induction m generalizing n low with
  | nil =>
    cases n with
    | nil => rfl
    | cons cell rest =>
      obtain ⟨k, w⟩ := cell
      simp only [canonicalFrom, Bool.and_eq_true, decide_eq_true_eq, bne_iff_ne] at hn
      have hk := h k hn.1.1.2
      simp only [readCell, if_true] at hk
      exact absurd hk.symm hn.1.2
  | cons cell rest ih =>
    obtain ⟨k, w⟩ := cell
    have hm' := hm
    simp only [canonicalFrom, Bool.and_eq_true, decide_eq_true_eq, bne_iff_ne] at hm'
    cases n with
    | nil =>
      have hk := h k hm'.1.1.2
      simp only [readCell, if_true] at hk
      exact absurd hk hm'.1.2
    | cons cell' rest' =>
      obtain ⟨k', w'⟩ := cell'
      have hn' := hn
      simp only [canonicalFrom, Bool.and_eq_true, decide_eq_true_eq, bne_iff_ne] at hn'
      rcases Nat.lt_trichotomy k k' with hlt | heq | hgt
      · have hk := h k hm'.1.1.2
        rw [readCell, if_pos rfl, readCell, if_neg (by omega), readCell_below (by omega) hn'.2] at hk
        exact absurd hk hm'.1.2
      · subst heq
        have hk := h k hm'.1.1.2
        rw [readCell, if_pos rfl, readCell, if_pos rfl] at hk
        subst hk
        congr 1
        refine ih hm'.2 hn'.2 fun a ha => ?_
        rcases Nat.lt_or_ge a (k + 1) with hlow | hhigh
        · rw [readCell_below hlow hm'.2, readCell_below hlow hn'.2]
        · have ha' := h a ha
          rwa [readCell, if_neg (by omega), readCell, if_neg (by omega)] at ha'
      · have hk := h k' hn'.1.1.2
        rw [readCell, if_neg (by omega), readCell_below (by omega) hm'.2, readCell, if_pos rfl] at hk
        exact absurd hk.symm hn'.1.2

/-- `MemRead` after `MemWrite` to the same cell gives the byte written (rules R34, R35). -/
theorem Memory.read_write_same (m : Memory) (a v : Byte) (hm : Memory.wf m = true) :
    Memory.read (Memory.write m a v) a = v :=
  readCell_writeCell_same m a.toNat v 0 hm

/-- `MemWrite` leaves every other cell alone (rule R35). -/
theorem Memory.read_write_ne (m : Memory) (a b v : Byte) (h : b ≠ a) :
    Memory.read (Memory.write m a v) b = Memory.read m b :=
  readCell_writeCell_ne m a.toNat b.toNat v fun hab => h (BitVec.eq_of_toNat_eq hab)

/-- A write keeps the canonical form. -/
theorem Memory.write_wf (m : Memory) (a v : Byte) (hm : Memory.wf m = true) :
    Memory.wf (Memory.write m a v) = true :=
  canonicalFrom_writeCell m a.toNat v 0 (Nat.zero_le _) a.isLt hm

/-- Writing a run of bytes keeps the canonical form. -/
theorem Memory.writeBytes_wf (m : Memory) (a : Nat) (bytes : List Byte) (hm : Memory.wf m = true) :
    Memory.wf (Memory.writeBytes m a bytes) = true := by
  induction bytes generalizing m a with
  | nil => exact hm
  | cons b rest ih =>
    rw [Memory.writeBytes]
    split
    · exact ih _ _ (Memory.write_wf m _ b hm)
    · exact ih _ _ hm

/-- A run of bytes written from `a` up leaves the cells below `a` alone. -/
theorem Memory.read_writeBytes_below (m : Memory) (a : Nat) (bytes : List Byte) (c : Byte) (h : c.toNat < a) :
    Memory.read (Memory.writeBytes m a bytes) c = Memory.read m c := by
  induction bytes generalizing m a with
  | nil => rfl
  | cons b rest ih =>
    rw [Memory.writeBytes, ih _ (a + 1) (by omega)]
    split
    · rename_i hle
      refine Memory.read_write_ne m _ c b fun hc => ?_
      simp only [Config.lastAddress] at hle
      have := congrArg BitVec.toNat hc
      rw [BitVec.toNat_ofNat, Nat.mod_eq_of_lt (by omega)] at this
      omega
    · rfl

/-- Canonical memories with the same contents are equal. -/
theorem Memory.eq_of_read (m n : Memory) (hm : Memory.wf m = true) (hn : Memory.wf n = true)
    (h : ∀ a, Memory.read m a = Memory.read n a) : m = n :=
  canonicalFrom_ext hm hn fun a ha => by
    have := h (BitVec.ofNat 8 a)
    rwa [Memory.read, Memory.read, BitVec.toNat_ofNat, Nat.mod_eq_of_lt ha] at this

/-- Reset memory lists nothing and is canonical. -/
theorem reset_mem_wf : Memory.wf State.reset.mem = true := rfl

theorem imageFrom_canonical (a : Nat) (program : List Byte) (h : a + program.length ≤ Config.memSize) :
    canonicalFrom a (imageFrom a program) = true := by
  induction program generalizing a with
  | nil => rfl
  | cons b rest ih =>
    rw [List.length_cons] at h
    rw [imageFrom]
    split
    · exact canonicalFrom_mono (Nat.le_succ a) (ih (a + 1) (by omega))
    · rename_i hb
      simp only [canonicalFrom, Bool.and_eq_true, decide_eq_true_eq, bne_iff_ne]
      exact ⟨⟨⟨Nat.le_refl a, by omega⟩, hb⟩, ih (a + 1) (by omega)⟩

theorem readCell_imageFrom (a k : Nat) (program : List Byte) (h : a ≤ k) :
    readCell (imageFrom a program) k = program.getD (k - a) Config.fillByte := by
  induction program generalizing a with
  | nil => simp [imageFrom, readCell]
  | cons b rest ih =>
    have below : ∀ (l : List Byte) (c : Nat), k < c → readCell (imageFrom c l) k = Config.fillByte := by
      intro l
      induction l with
      | nil => intros; rfl
      | cons d l ihl =>
        intro c hc
        rw [imageFrom]
        split
        · exact ihl _ (by omega)
        · rw [readCell, if_neg (by omega), ihl _ (by omega)]
    rcases Nat.eq_or_lt_of_le h with rfl | hlt
    · rw [Nat.sub_self, List.getD_cons_zero, imageFrom]
      split
      · rename_i hb
        rw [below rest (a + 1) (by omega), hb]
      · rw [readCell, if_pos rfl]
    · rw [show k - a = k - (a + 1) + 1 by omega, List.getD_cons_succ, imageFrom]
      split
      · exact ih (a + 1) hlt
      · rw [readCell, if_neg (by omega), ih (a + 1) hlt]

/-- IMAGE of a program that fits is canonical memory (rule R133). -/
theorem image_wf (program : List Byte) (h : program.length ≤ Config.memSize) : Memory.wf (image program) = true :=
  imageFrom_canonical 0 program (by omega)

/-- IMAGE holds the program's bytes from address 0 and the fill byte after them (rule R133). -/
theorem read_image (program : List Byte) (a : Byte) :
    Memory.read (image program) a = program.getD a.toNat Config.fillByte :=
  readCell_imageFrom 0 a.toNat program (Nat.zero_le _)

end Sys2Proof.Laws
end

