-- ==== Sys2Proof/Laws/PerInstr.lean ====
section
/-! SUPPORT. Statements for all instructions, one lemma per constructor. -/

namespace Sys2Proof.Laws

namespace EncodingShape

/-- An encoding begins with the instruction's opcode byte and, for a well-formed instruction, is as long as that byte
says (rules R50, R57). -/
def Statement (i : Instr) : Prop :=
  (encode i).head? = some i.opcode ∧ (i.wf = true → i.length = instrLength i.opcode)

theorem ldi (reg imm8 : Byte) : Statement (.ldi reg imm8) := ⟨rfl, fun _ => rfl⟩
theorem prn (reg : Byte) : Statement (.prn reg) := ⟨rfl, fun _ => rfl⟩
theorem cmp (regA regB : Byte) : Statement (.cmp regA regB) := ⟨rfl, fun _ => rfl⟩
theorem jmp (reg : Byte) : Statement (.jmp reg) := ⟨rfl, fun _ => rfl⟩
theorem jeq (reg : Byte) : Statement (.jeq reg) := ⟨rfl, fun _ => rfl⟩
theorem jne (reg : Byte) : Statement (.jne reg) := ⟨rfl, fun _ => rfl⟩
theorem halt (opcode : Byte) : Statement (.halt opcode) := by
  refine ⟨rfl, fun h => ?_⟩
  simp only [Instr.wf, Bool.not_eq_true', recognised, Bool.or_eq_false_iff, beq_eq_false_iff_ne] at h
  simp [Instr.length, encode, Instr.operandBytes, Instr.opcode, instrLength, recognised, h]

end EncodingShape

end Sys2Proof.Laws
end

