-- ==== Sys2Proof/Laws/Step.lean ====
section
/-! SUPPORT. What a step can do, said once: it runs the fetched instruction, takes the fetch's fault, or leaves a
stopped unit as it is. -/

namespace Sys2Proof.Laws

open Sys2Proof.Machine

/-- A RUNNING unit runs what it fetched (rule R70). -/
theorem step_of_fetch_ok {s : State} {i : Instr} (hrun : s.run = .running) (hf : fetch s = .ok i) :
    step s = exec i s := by
  simp [step, hrun, hf]

/-- A RUNNING unit whose fetch faults takes the fault (rules R73, R114). -/
theorem step_of_fetch_error {s : State} {c : FaultCause} (hrun : s.run = .running) (hf : fetch s = .error c) :
    step s = .next (s.takeFault c) := by
  simp [step, hrun, hf]

/-- A unit that is not RUNNING stays as it is (rule R77). -/
theorem step_of_stopped {s : State} (hrun : s.run ≠ .running) : step s = .next s := by
  unfold step
  cases h : s.run with
  | running => exact absurd h hrun
  | halted => rfl
  | faulted => rfl

/-- Fetching faults only with MEM_RANGE (rule R111). -/
theorem fetch_error {s : State} {c : FaultCause} (hf : fetch s = .error c) : c = .memRange := by
  rw [fetch_eq] at hf
  split at hf
  · split at hf
    · cases hf; rfl
    · cases hf
  · split at hf
    · split at hf
      · cases hf; rfl
      · cases hf
    · cases hf

/-- The three ways a step comes to its next state. -/
theorem step_next_cases {s t : State} (h : step s = .next t) :
    (s.run ≠ .running ∧ t = s) ∨
    (s.run = .running ∧ fetch s = .error .memRange ∧ t = s.takeFault .memRange) ∨
    ∃ i, s.run = .running ∧ fetch s = .ok i ∧ exec i s = .next t := by
  by_cases hrun : s.run = .running
  · cases hf : fetch s with
    | ok i => exact .inr (.inr ⟨i, hrun, rfl, by rw [← step_of_fetch_ok hrun hf]; exact h⟩)
    | error c =>
      obtain rfl := fetch_error hf
      rw [step_of_fetch_error hrun hf, Host.Outcome.next.injEq] at h
      exact .inr (.inl ⟨hrun, rfl, h.symm⟩)
  · rw [step_of_stopped hrun, Host.Outcome.next.injEq] at h
    exact .inl ⟨hrun, h.symm⟩

end Sys2Proof.Laws
end

