-- ==== Sys2Proof/Tests/Slice0.lean ====
section
/-! SUPPORT. The model's own tests. Expected results are the spec's: the vectors of spec/95_test_vectors.md (named in
each test's comment) and the encodings of spec/30_encoding.md, written out bit by bit. The second half shows, for every
statement with hypotheses, a state and operands that meet them, clause by clause at the boundary of its range. -/

namespace Sys2Proof.Tests

open Sys2Proof Sys2Proof.Machine Sys2Proof.Statements

/-- A RUNNING unit at `pc` with the bytes from `pc` up, eight register values and flags. -/
def at' (pc : Nat) (bytes : List Byte) (x : Vector Byte 8) (f : Flags) : State :=
  { x := x, pc := BitVec.ofNat 8 pc, fl := f, run := .running, fc := none,
    mem := Memory.writeBytes [] pc bytes, out := [] }

/-- Register values 10, 20, 33, 3, 0, 255, 128, 127. -/
def regs : Vector Byte 8 := #v[10, 20, 33, 3, 0, 255, 128, 127]

/-- A test state with those registers and the flags "greater". -/
def unit (pc : Nat) (bytes : List Byte) : State := at' pc bytes regs ⟨false, true, false⟩

/-- A test state with those registers and the flags "equal". -/
def unitEq (pc : Nat) (bytes : List Byte) : State := at' pc bytes regs ⟨false, false, true⟩

/-- The next state a step answers, if it answers one. -/
def after : StepResult → Option State
  | .next t => some t
  | .fault _ => none
  | .refused _ => none

/-! ### Well-formedness refuses ill-formed terms -/

theorem test_wf_refuses_a_halt_on_a_recognised_opcode :
    Instr.wf (.halt 0x82) = false ∧ Instr.wf (.halt 0x56) = false ∧ Instr.wf (.halt 0x57) = true := by decide

theorem test_operandsLegal_refuses_register_eight :
    Instr.operandsLegal (.ldi 8 0) = false ∧ Instr.operandsLegal (.prn 8) = false ∧
    Instr.operandsLegal (.cmp 8 0) = false ∧ Instr.operandsLegal (.cmp 0 8) = false ∧
    Instr.operandsLegal (.jmp 255) = false ∧ Instr.operandsLegal (.jeq 8) = false ∧
    Instr.operandsLegal (.jne 8) = false ∧ Instr.operandsLegal (.ldi 7 255) = true := by decide

theorem test_memory_wf_refuses_lists_out_of_form :
    Memory.wf [(3, 1), (2, 1)] = false ∧ Memory.wf [(2, 1), (2, 1)] = false ∧ Memory.wf [(2, 0)] = false ∧
    Memory.wf [(256, 1)] = false ∧ Memory.wf [(0, 1), (255, 2)] = true := by decide

/-! ### Decoding, from the bit strings of rule R51 -/

theorem test_decode_ldi : decode [0b10000010, 0b00000111, 0b11111111, 0x47] = .ok (.ldi 7 255, [0x47]) := by rfl
theorem test_decode_prn : decode [0b01000111, 0b00000101, 0x00] = .ok (.prn 5, [0x00]) := by rfl
theorem test_decode_cmp : decode [0b10100111, 0b00000001, 0b00000000] = .ok (.cmp 1 0, []) := by rfl
theorem test_decode_jmp : decode [0b01010100, 0b00000001] = .ok (.jmp 1, []) := by rfl
theorem test_decode_jeq : decode [0b01010101, 0b00000010] = .ok (.jeq 2, []) := by rfl
theorem test_decode_jne : decode [0b01010110, 0b00000010] = .ok (.jne 2, []) := by rfl
/-- Vectors H-1 to H-8: neighbours of opcodes, and top bits like an opcode's, are halts of length 1. -/
theorem test_decode_halt :
    [0x00, 0x01, 0xFF, 0x0A, 0x80, 0x83, 0x57, 0x53].map (fun op : Byte => decodeTableWord 8 op.toNat) =
      [0x00, 0x01, 0xFF, 0x0A, 0x80, 0x83, 0x57, 0x53].map fun op : Byte => some (.halt op) := by decide
theorem test_decode_rejects_missing_operands :
    decode [] = .error .opcodeMissing ∧ decode [0x47] = .error .operand1Missing ∧
    decode [0xA7, 0x00] = .error .operand2Missing := ⟨rfl, rfl, rfl⟩
/-! ### One step each -/

/-- Vector L2 (and L6 at 252). -/
theorem test_ldi :
    (after (step (unit 252 [0x82, 0x07, 0xFF]))).map (fun t => (t.x[7], t.x[0], t.pc, t.fl)) =
      some (255, 10, 255, ⟨false, true, false⟩) := by decide
/-- Vectors L7 to L12. -/
theorem test_ldi_faults :
    [unit 253 [0x82, 0x02, 0x2A], unit 254 [0x82, 0x02], unit 255 [0x82], unit 10 [0x82, 0x08, 0x05],
      unit 253 [0x82, 0x09, 0x05]].map (fun s => after (step s) == some (s.takeFault .pcRange) ||
        after (step s) == some (s.takeFault .memRange) || after (step s) == some (s.takeFault .regIndex)) =
      [true, true, true, true, true] ∧
    [unit 253 [0x82, 0x02, 0x2A], unit 254 [0x82, 0x02], unit 255 [0x82], unit 10 [0x82, 0x08, 0x05],
      unit 253 [0x82, 0x09, 0x05]].map (fun s => (after (step s)).map State.faultCausePort) =
      [some 3, some 1, some 1, some 2, some 2] := by decide
/-- Vectors P-3 and P-6. -/
theorem test_prn :
    (after (step (unit 253 [0x47, 0x05]))).map (fun t => (t.out, t.pc, t.x[5])) = some ([255], 255, 255) := by decide
/-- Vectors P-7 to P-10. -/
theorem test_prn_faults :
    [unit 254 [0x47, 0x00], unit 255 [0x47], unit 0 [0x47, 0x08], unit 254 [0x47, 0x09]].map
      (fun s => (after (step s)).map fun t => (t.faultCausePort, t.out, t.pc)) =
      [some (3, [], 254), some (1, [], 255), some (2, [], 0), some (2, [], 254)] := by decide
/-- Vectors C-1, C-5, C-6, C-7, C-8: less, unsigned, no sign, one register twice, operand order. -/
theorem test_cmp :
    [[0xA7, 0x00, 0x01], [0xA7, 0x05, 0x04], [0xA7, 0x07, 0x06], [0xA7, 0x03, 0x03], [0xA7, 0x01, 0x00]].map
      (fun b => (after (step (unit 0 b))).map fun t => (t.fl8, t.pc)) =
      [some (4, 3), some (2, 3), some (4, 3), some (1, 3), some (2, 3)] := by decide
/-- Vectors C-12, C-13, C-15, C-16. -/
theorem test_cmp_faults :
    [unit 253 [0xA7, 0x00, 0x00], unit 254 [0xA7, 0x00], unit 0 [0xA7, 0x08, 0x00], unit 0 [0xA7, 0x00, 0x08]].map
      (fun s => (after (step s)).map fun t => (t.faultCausePort, t.fl)) =
      [some (3, ⟨false, true, false⟩), some (1, ⟨false, true, false⟩), some (2, ⟨false, true, false⟩),
        some (2, ⟨false, true, false⟩)] := by decide
/-- Vectors J-5, J-6, J-7, J-8. -/
theorem test_jmp :
    [unit 0 [0x54, 0x05], unit 254 [0x54, 0x00], unit 255 [0x54], unit 0 [0x54, 0x08]].map
      (fun s => (after (step s)).map fun t => (t.pc, t.faultCausePort)) =
      [some (255, 0), some (10, 0), some (255, 1), some (0, 2)] := by decide
/-- Vectors J-9, J-11, J-17, J-18, J-21. -/
theorem test_jeq :
    [unitEq 28 [0x55, 0x02], unit 28 [0x55, 0x02], unitEq 254 [0x55, 0x00], unit 254 [0x55, 0x00],
      unit 0 [0x55, 0x08]].map (fun s => (after (step s)).map fun t => (t.pc, t.faultCausePort)) =
      [some (33, 0), some (30, 0), some (10, 0), some (254, 3), some (0, 2)] := by decide
/-- Vectors J-14, J-16, J-19, J-20, J-22. -/
theorem test_jne :
    [unit 41 [0x56, 0x02], unitEq 41 [0x56, 0x02], unitEq 254 [0x56, 0x00], unit 254 [0x56, 0x00],
      unitEq 0 [0x56, 0x0F]].map (fun s => (after (step s)).map fun t => (t.pc, t.faultCausePort)) =
      [some (33, 0), some (43, 0), some (254, 3), some (10, 0), some (0, 2)] := by decide
/-- Vectors H-9, H-10, H-11. -/
theorem test_halt :
    [unit 255 [0x00], unit 254 [0x12, 0x34], { unit 5 [0x82] with run := .halted }].map
      (fun s => (after (step s)).map fun t => (t.haltedPort, t.faultedPort, t.faultCausePort, t.pc)) =
      [some (true, false, 0, 255), some (true, false, 0, 254), some (true, false, 0, 5)] := by decide
/-- The first step after reset runs a placed word (vector L1), and with nothing placed it halts (vector S6). -/
theorem test_reset :
    (after (step (State.reset.withFetchWord 24 0x080082))).map (fun t => (t.x[0], t.pc)) = some (8, 3) ∧
    after (step State.reset) = some { State.reset with run := .halted } := by decide

/-! ### The loader, the sink and the views -/

/-- Vectors T1, T3, T4, T5, T6 to T9, T13. -/
theorem test_loader :
    textBytes "00001010 # comment\n01000111\n00000000\n".toList = [10, 71, 0] ∧
    textBytes "10000010\n2\n0x08\n8\nabc\n00001000\n".toList = [0x82, 0x08] ∧
    textBytes "  01000111  \n01000111#x\n101\n".toList = [0x47, 0x47, 5] ∧
    textBytes "1000 0010\n100000000\n0b10000010\n#10000010\n".toList = [] :=
  ⟨rfl, rfl, rfl, rfl⟩
/-- Vectors T2 and T10, and a last line without a line end. -/
theorem test_loader_skips_first_and_last_lines :
    textBytes "# only a comment\n\n   \n10000010\n".toList = [0x82] ∧ textBytes [] = [] ∧
    textBytes "101\n10 1".toList = [5] := ⟨rfl, rfl, rfl⟩
/-- Rule R89's renderings, and vector P-4. -/
theorem test_sink : sinkText [0, 8, 10, 255] = "0\n8\n10\n255\n".toList ∧ decimal 7 = ['7'] := ⟨rfl, rfl⟩
/-- Rules R124 and R61. -/
theorem test_trace_and_notation :
    (unit 254 [0x47, 0x0A]).traceLine = "FE 47 0A -- 0A 14 21 03 00 FF 80 7F".toList ∧
    asmText (.ldi 0 8) = "LDI R0,8".toList := by decide

/-! ### Witnesses: the hypotheses of the statements can be met, clause by clause -/

/-- An instance of the open reset parameters that is not the chosen one. -/
def someReset : Config.ResetValues := { x := regs, l := true, g := true, e := true }

theorem witness_DecodeAndEncodeAgree :
    Instr.wf (.ldi 255 0) = true ∧ Instr.wf (.halt 0x83) = true ∧
    decode [0x82, 9, 5, 1] = .ok (.ldi 9 5, [1]) ∧ decode [0x83] = .ok (.halt 0x83, []) := ⟨rfl, rfl, rfl, rfl⟩

theorem witness_OpcodeMapIsTheSpecs : (0x83 : Byte) ∉ sixOpcodes ∧ (0 : Byte) ∉ sixOpcodes := by decide

theorem witness_LengthIsTheOpcodeBytes :
    lengthByOpcode 0x82 ≤ [(0 : Byte), 8].length + 1 ∧ [(0 : Byte)].length + 1 < lengthByOpcode 0xA7 ∧
    ([] : List Byte).length + 1 < lengthByOpcode 0x47 ∧ lengthByOpcode 0xFF ≤ ([] : List Byte).length + 1 := by decide

theorem witness_StepRunsTheInstructionInMemory :
    (unit 253 [0x82, 7, 9]).run = .running ∧ Instr.wf (.ldi 7 9) = true ∧
    (∀ (k : Nat) (h : k < (encode (.ldi 7 9)).length), (unit 253 [0x82, 7, 9]).pc.toNat + k ≤ 255 ∧
      byteAfterPc (unit 253 [0x82, 7, 9]) k = (encode (.ldi 7 9))[k]) := by
  refine ⟨rfl, rfl, ?_⟩
  decide

theorem witness_LdiFollowsItsRule :
    254 ≤ (unit 254 []).pc.toNat ∧
    ((unit 253 []).pc.toNat ≤ 253 ∧ 7 < (8 : Byte).toNat) ∧
    ((unit 253 []).pc.toNat = 253 ∧ (7 : Byte).toNat ≤ 7) ∧
    ((unit 252 []).pc.toNat ≤ 252 ∧ (7 : Byte).toNat = (7 : Fin 8).val) := by decide

theorem witness_PrnFollowsItsRule :
    (unit 255 []).pc.toNat = 255 ∧
    ((unit 254 []).pc.toNat ≤ 254 ∧ 7 < (8 : Byte).toNat) ∧
    ((unit 254 []).pc.toNat = 254 ∧ (7 : Byte).toNat ≤ 7) ∧
    ((unit 253 []).pc.toNat ≤ 253 ∧ (7 : Byte).toNat = (7 : Fin 8).val) := by decide

theorem witness_CmpFollowsItsRules :
    254 ≤ (unit 254 []).pc.toNat ∧
    ((unit 253 []).pc.toNat ≤ 253 ∧ (7 < (0 : Byte).toNat ∨ 7 < (8 : Byte).toNat)) ∧
    ((unit 253 []).pc.toNat = 253 ∧ (7 : Byte).toNat ≤ 7 ∧ (0 : Byte).toNat ≤ 7) ∧
    ((unit 252 []).pc.toNat ≤ 252 ∧ (7 : Byte).toNat = (7 : Fin 8).val ∧ (0 : Byte).toNat = (0 : Fin 8).val) ∧
    (unit 252 []).x[(0 : Fin 8)].toNat < (unit 252 []).x[(1 : Fin 8)].toNat ∧
    (unit 252 []).x[(0 : Fin 8)].toNat < (unit 252 []).x[(5 : Fin 8)].toNat ∧
    (unit 252 []).x[(3 : Fin 8)].toNat = (unit 252 []).x[(3 : Fin 8)].toNat := by decide

theorem witness_JmpFollowsItsRule :
    (unit 255 []).pc.toNat = 255 ∧ ((unit 254 []).pc.toNat ≤ 254 ∧ 7 < (8 : Byte).toNat) ∧
    ((unit 254 []).pc.toNat ≤ 254 ∧ (7 : Byte).toNat = (7 : Fin 8).val) := by decide

theorem witness_JeqFollowsItsRule :
    (unit 255 []).pc.toNat = 255 ∧ ((unit 254 []).pc.toNat ≤ 254 ∧ 7 < (8 : Byte).toNat) ∧
    ((unit 254 []).pc.toNat = 254 ∧ (7 : Byte).toNat ≤ 7 ∧ (unit 254 []).fl.e = false) ∧
    ((unitEq 254 []).pc.toNat ≤ 254 ∧ (unitEq 254 []).fl.e = true ∧ (7 : Byte).toNat = (7 : Fin 8).val) ∧
    ((unit 253 []).pc.toNat ≤ 253 ∧ (unit 253 []).fl.e = false ∧ (7 : Byte).toNat ≤ 7) := by decide

theorem witness_JneFollowsItsRule :
    (unit 255 []).pc.toNat = 255 ∧ ((unit 254 []).pc.toNat ≤ 254 ∧ 7 < (8 : Byte).toNat) ∧
    ((unitEq 254 []).pc.toNat = 254 ∧ (7 : Byte).toNat ≤ 7 ∧ (unitEq 254 []).fl.e = true) ∧
    ((unit 254 []).pc.toNat ≤ 254 ∧ (unit 254 []).fl.e = false ∧ (7 : Byte).toNat = (7 : Fin 8).val) ∧
    ((unitEq 253 []).pc.toNat ≤ 253 ∧ (unitEq 253 []).fl.e = true ∧ (7 : Byte).toNat ≤ 7) ∧
    ((unit 253 []).pc.toNat ≤ 253 ∧ (7 : Byte).toNat ≤ 7) := by decide

theorem witness_HaltFollowsItsRule :
    (0x57 : Byte) ∉ sixOpcodes ∧ (unit 255 [0x57]).run = .running ∧
    (unit 255 [0x57]).memRead (unit 255 [0x57]).pc = 0x57 := by decide

theorem witness_StepHasOneOfThreeOutcomes :
    (unit 252 [0x82, 7, 9]).run = .running ∧ (unit 255 [0]).run = .running ∧ (unit 255 [0x47]).run = .running := by decide

theorem witness_StepFaultsExactlyAsTabulated :
    (unit 253 [0xA7, 0, 9]).run = .running ∧
    step (unit 253 [0xA7, 0, 9]) = .next (faultedWith (unit 253 [0xA7, 0, 9]) .regIndex) ∧
    tabulatedFault (unit 253 [0xA7, 0, 9]) = some .regIndex ∧
    tabulatedFault (unitEq 254 [0x55, 0]) = none ∧ tabulatedFault (unit 254 [0x55, 0]) = some .pcRange ∧
    tabulatedFault (unitEq 255 [0x55]) = some .memRange ∧
    step (unitEq 254 [0x55, 0]) = .next ((unitEq 254 [0x55, 0]).writePc 10) := by
  refine ⟨rfl, rfl, ?_, ?_, ?_, ?_, rfl⟩ <;> decide

theorem witness_FaultsArePreciseAndTerminal :
    (unit 254 [0x47, 0]).run = .running ∧
    step (unit 254 [0x47, 0]) = .next (faultedWith (unit 254 [0x47, 0]) .pcRange) ∧
    (faultedWith (unit 254 [0x47, 0]) .pcRange).run = .faulted ∧
    Reaches (faultedWith (unit 254 [0x47, 0]) .pcRange) (faultedWith (unit 254 [0x47, 0]) .pcRange) :=
  ⟨rfl, rfl, rfl, .start⟩

theorem witness_StoppedStatesStayUntilReset :
    (unit 0 []).enterHalted.run ≠ .running ∧ ((unit 0 []).takeFault .memRange).run ≠ .running := by decide

theorem witness_StepKeepsInvariant :
    (unit 253 [0x47, 5]).Inv ∧ step (unit 253 [0x47, 5]) = .next (((unit 253 [0x47, 5]).emit 255).writePc 255) ∧
    ((unit 0 []).takeFault .regIndex).Inv := by
  refine ⟨⟨by decide, by decide⟩, rfl, ⟨by decide, by decide⟩⟩

theorem witness_LaunchMeetsInvariant : (List.replicate 256 (1 : Byte)).length ≤ 256 := by
  rw [List.length_replicate]

theorem witness_MemoryIsTheImageThroughoutARun :
    Memory.wf [(0, 1), (255, 2)] = true ∧
    exec (.prn 5) (unit 253 [0x47, 5]) = .next (((unit 253 [0x47, 5]).emit 255).writePc 255) ∧
    [(0x54 : Byte), 4].length ≤ 256 ∧
    Reaches (State.launch someReset [0x54, 4, 0, 0x47])
      ((State.launch someReset [0x54, 4, 0, 0x47]).writePc 0) :=
  ⟨rfl, rfl, by decide, .tail .start ⟨rfl, rfl⟩⟩

theorem witness_RegistersTouchedAreTheTables :
    exec (.ldi 7 9) (unit 252 []) = .next (((unit 252 []).writeReg 7 9).writePc 255) ∧
    exec (.ldi 8 9) (unit 252 []) = .next ((unit 252 []).takeFault .regIndex) ∧
    Instr.operandsLegal (.ldi 8 9) = false ∧
    (6 : Fin 8).val ∉ registersWritten (.ldi 7 9) ∧ (7 : Fin 8).val ∉ registersRead (.ldi 7 9) (unit 252 []) ∧
    (2 : Fin 8).val ∉ registersRead (.jeq 2) (unit 252 []) ∧
    exec (.ldi 7 9) { unit 252 [] with x := (unit 252 []).x.set (7 : Fin 8) 1 } =
      .next (((unit 252 []).writeReg 7 9).writePc 255) := by
  refine ⟨rfl, rfl, rfl, ?_, ?_, ?_, rfl⟩ <;> decide

theorem witness_FlagsAreWrittenByCmpAndReadAsTabulated :
    exec (.jmp 0) (unit 254 []) = .next ((unit 254 []).writePc 10) ∧ (∀ a b, Instr.jmp 0 ≠ .cmp a b) ∧
    (∀ reg, Instr.jmp 0 ≠ .jeq reg ∧ Instr.jmp 0 ≠ .jne reg) ∧
    exec (.jmp 0) { unit 254 [] with fl := ⟨true, true, false⟩ } =
      .next { (unit 254 []).writePc 10 with fl := ⟨true, true, false⟩ } :=
  ⟨rfl, nofun, fun _ => ⟨nofun, nofun⟩, rfl⟩

theorem witness_OutIsExtendedOnlyByPrn :
    exec (.prn 5) (unit 253 []) = .next (((unit 253 []).emit 255).writePc 255) ∧
    exec (.prn 5) { unit 253 [] with out := [1] } = .next { (unit 253 []).writePc 255 with out := [1, 255] } ∧
    Reaches (unit 253 [0x47, 5]) (((unit 253 [0x47, 5]).emit 255).writePc 255) :=
  ⟨rfl, rfl, .tail .start ⟨rfl, rfl⟩⟩

theorem witness_OutputPortStrobesExactlyForPrn :
    (unit 253 []).run = .running ∧ exec (.prn 5) (unit 253 []) = .next (((unit 253 []).emit 255).writePc 255) ∧
    outStrobe (unit 253 []) (((unit 253 []).emit 255).writePc 255) = some 255 := ⟨rfl, rfl, rfl⟩

theorem witness_PcAfterAStepIsTheTables :
    (unit 252 [0x82, 7, 9]).run = .running ∧
    step (unit 252 [0x82, 7, 9]) = .next (((unit 252 [0x82, 7, 9]).writeReg 7 9).writePc 255) ∧
    step (unit 255 [0]) = .next (unit 255 [0]).enterHalted ∧ (unit 255 [0]).memRead 255 ∉ sixOpcodes ∧
    step (unitEq 254 [0x55, 5]) = .next ((unitEq 254 [0x55, 5]).writePc 255) ∧
    step (unit 254 [0x56, 5]) = .next ((unit 254 [0x56, 5]).writePc 255) := by
  refine ⟨rfl, rfl, rfl, ?_, rfl, rfl⟩
  decide

theorem witness_StepReadsOnlyItsInstructionBytes :
    (unit 254 [0x47, 8]).run = .running ∧
    (unit 254 [0x47, 8]).pc.toNat + lengthByOpcode ((unit 254 [0x47, 8]).memRead (unit 254 [0x47, 8]).pc) ≤ 256 ∧
    step (unit 254 [0x47, 8]) = .next ((unit 254 [0x47, 8]).takeFault .regIndex) ∧
    (∀ k, k < 2 → Memory.read [(0, 9), (254, 0x47), (255, 8)] (BitVec.ofNat 8 (254 + k)) =
      byteAfterPc (unit 254 [0x47, 8]) k) := by
  refine ⟨rfl, ?_, rfl, ?_⟩ <;> decide

theorem witness_LaunchStateIsTheSpecs :
    [(1 : Byte), 2].length ≤ 256 ∧ (1 : Byte).toNat < [(1 : Byte), 2].length ∧
    [(1 : Byte), 2].length ≤ (2 : Byte).toNat := by decide

theorem witness_BootGivesTheLaunchStateFromAnyState :
    [(1 : Byte), 2].length ≤ 256 ∧ Memory.wf (unit 253 [1, 2, 3]).mem = true := by decide

theorem witness_EmptyProgramHaltsInItsFirstStep : textBytes "# no line parses\n\n2\n".toList = [] := by decide

theorem witness_UnparsableLinesLeaveNoGap :
    endsLines [] ∧ endsLines "101\n".toList ∧ ¬ endsLines "101".toList ∧
    '\n' ∉ "0x08 # hex".toList ∧ lineByte "0x08 # hex".toList = none ∧ lineByte "100000000".toList = none := by
  refine ⟨.inl rfl, .inr rfl, ?_, ?_, rfl, rfl⟩
  · unfold endsLines
    decide
  · decide

theorem witness_TokenGrammarIsOneToEightBinaryDigits :
    "\t ".toList.all isSpace = true ∧ " ".toList.all isSpace = true ∧ '#' ∉ "1000 0010".toList ∧
    "1000 0010".toList.head? = some '1' ∧ "1000 0010".toList.getLast? = some '0' ∧
    isSpace '1' = false ∧ isSpace '0' = false ∧ "# x".toList.head? = some '#' ∧
    lineByte ("\t ".toList ++ "1000 0010".toList ++ " ".toList ++ "# x".toList) = none ∧
    lineByte ("\t ".toList ++ "10000010".toList ++ " ".toList ++ "# x".toList) = some 0x82 := by
  refine ⟨rfl, rfl, ?_, rfl, rfl, rfl, rfl, rfl, rfl, rfl⟩
  decide

theorem bytes_of_zero_lines (n : Nat) : (textBytes ((List.replicate n ['0', '\n']).flatten)).length = n := by
  induction n with
  | zero => rfl
  | succ n ih =>
    have hline : ∀ text, textBytes ('0' :: '\n' :: text) = 0 :: textBytes text := fun _ => rfl
    rw [List.replicate_succ, List.flatten_cons]
    simp only [List.cons_append, List.nil_append, hline, List.length_cons, ih]

theorem witness_LoadIsRefusedOnlyAboveCapacity :
    (textBytes ((List.replicate 256 ['0', '\n']).flatten)).length ≤ 256 ∧
    256 < (textBytes ((List.replicate 257 ['0', '\n']).flatten)).length := by
  rw [bytes_of_zero_lines, bytes_of_zero_lines]
  decide

theorem witness_SinkTextDeterminesOut : (10 : Byte) ≠ 0 ∧ sinkText [1, 0] = sinkText [1, 0] := by decide

/-- JMP R4 at address 254 with X[4] = 254: a run that stays where it is, its last byte at 255. -/
def loop : State := at' 254 [0x54, 4] #v[0, 0, 0, 0, 254, 0, 0, 0] ⟨false, false, false⟩

/-- Rule R125's conditions at the top of memory: a JMP and a taken JEQ or JNE may end at 255, nothing else may. -/
theorem test_range_conditions_at_the_top :
    [unit 254 [0x54, 0], unitEq 254 [0x55, 0], unit 254 [0x56, 0], unit 254 [0x55, 0], unitEq 254 [0x56, 0],
      unit 254 [0x47, 0], unit 253 [0x82, 0, 0]].map (fun s => (s.lastByteAddr, s.jumpTaken)) =
      [(255, true), (255, true), (255, true), (255, false), (255, false), (255, false), (255, false)] := by decide

theorem witness_RunInRangeNeverFaults :
    loop.run = .running ∧ step loop = .next loop ∧
    (∀ t, Reaches loop t → t.run = .running → t.nextInstrInRange) ∧ Reaches loop loop := by
  have stays : ∀ t, Reaches loop t → t = loop := by
    intro t ht
    induction ht with
    | start => rfl
    | tail _ h ih =>
      subst ih
      have hs : step loop = .next loop := rfl
      rw [h.2, Host.Outcome.next.injEq] at hs
      exact hs
  refine ⟨rfl, rfl, fun t ht _ => ?_, .start⟩
  rw [stays t ht]
  refine ⟨by decide, fun i hi => ?_⟩
  have hf : fetch loop = .ok (.jmp 4) := rfl
  rw [hf, Except.ok.injEq] at hi
  rw [← hi]
  decide

theorem witness_PlacedWordIsDecodedAndRun :
    Memory.wf (unit 253 [1, 2, 3]).mem = true ∧ Instr.wf (.ldi 8 255) = true ∧
    (unit 253 [1, 2, 3]).pc.toNat + Instr.length (.ldi 8 255) ≤ 256 := by decide

theorem witness_FlagsStayOneHotFromTheFirstCmp :
    step (unit 252 [0xA7, 0, 1]) =
      .next (((unit 252 [0xA7, 0, 1]).writeFlags ⟨true, false, false⟩).writePc 255) ∧
    (unit 252 [0xA7, 0, 1]).run = .running ∧ (unit 252 [0xA7, 0, 1]).memRead 252 = 0xA7 ∧
    (unit 252 [0xA7, 0, 1]).fl.oneHot = true := ⟨rfl, rfl, rfl, rfl⟩

/-- LDI R0,0; CMP R0,R0; JEQ R0: a program without end that sets everything before it uses it. -/
def carefulLoop : List Byte := [0x82, 0, 0, 0xA7, 0, 0, 0x55, 0]

/-- The states of its run from one launch state: at launch, after LDI, after CMP, after JEQ, after the second LDI. -/
def carefulLaunch : State := State.launch someReset carefulLoop
def carefulLoaded : State := (carefulLaunch.writeReg 0 0).writePc 3
def carefulCompared : State := (carefulLoaded.writeFlags ⟨false, false, true⟩).writePc 6
def carefulBack : State := carefulCompared.writePc 0
def carefulAgain : State := (carefulBack.writeReg 0 0).writePc 3

/-- Where a tracked run of the careful loop can be, and what is set there. -/
def carefulPlace (written : List Nat) (compared : Bool) (t : State) : Prop :=
  t = carefulLaunch ∨ 0 ∈ written ∧ (t = carefulLoaded ∨
    compared = true ∧ (t = carefulCompared ∨ t = carefulBack ∨ t = carefulAgain))

theorem careful_step {written : List Nat} {compared : Bool} {t u : State} {i : Instr}
    (hp : carefulPlace written compared t) (hf : fetch t = .ok i) (hs : step t = .next u) :
    carefulPlace (registersWritten i ++ written) (compared || isCompare i) u := by
  obtain rfl | ⟨hw, rfl | ⟨hc, rfl | rfl | rfl⟩⟩ := hp
  · have hf' : fetch carefulLaunch = .ok (.ldi 0 0) := rfl
    have hs' : step carefulLaunch = .next carefulLoaded := rfl
    cases hf'.symm.trans hf
    cases hs'.symm.trans hs
    exact .inr ⟨by simp [registersWritten], .inl rfl⟩
  · have hf' : fetch carefulLoaded = .ok (.cmp 0 0) := rfl
    have hs' : step carefulLoaded = .next carefulCompared := rfl
    cases hf'.symm.trans hf
    cases hs'.symm.trans hs
    exact .inr ⟨by simp [hw], .inr ⟨by simp [isCompare], .inl rfl⟩⟩
  · have hf' : fetch carefulCompared = .ok (.jeq 0) := rfl
    have hs' : step carefulCompared = .next carefulBack := rfl
    cases hf'.symm.trans hf
    cases hs'.symm.trans hs
    exact .inr ⟨by simp [hw], .inr ⟨by simp [hc], .inr (.inl rfl)⟩⟩
  · have hf' : fetch carefulBack = .ok (.ldi 0 0) := rfl
    have hs' : step carefulBack = .next carefulAgain := rfl
    cases hf'.symm.trans hf
    cases hs'.symm.trans hs
    exact .inr ⟨by simp [hw], .inr ⟨by simp [hc], .inr (.inr rfl)⟩⟩
  · have hf' : fetch carefulAgain = .ok (.cmp 0 0) := rfl
    have hs' : step carefulAgain = .next carefulCompared := rfl
    cases hf'.symm.trans hf
    cases hs'.symm.trans hs
    exact .inr ⟨by simp [hw], .inr ⟨by simp [hc], .inl rfl⟩⟩

theorem witness_SufficientConditionsMakeAProgramCorrect :
    carefulLoop.length ≤ 256 ∧
    (∀ (written : List Nat) (compared : Bool) (t : State),
      ReachesHaving (State.launch someReset carefulLoop) written compared t → t.run = .running →
        t.nextInstrInRange ∧ usesOnlySetValues written compared t) ∧
    Reaches (State.launch someReset carefulLoop) carefulLoaded := by
  have place : ∀ written compared t, ReachesHaving carefulLaunch written compared t →
      carefulPlace written compared t := by
    intro written compared t ht
    induction ht with
    | start => exact .inl rfl
    | tail _ hf hs _ ih => exact careful_step ih hf hs.2
  refine ⟨by decide, fun written compared t ht _ => ?_, .tail .start ⟨rfl, rfl⟩⟩
  have settle : ∀ (s : State) (j : Instr), fetch s = .ok j → j.operandsLegal = true → s.lastByteAddr < 255 →
      (∀ r ∈ registersRead j s, r ∈ written) ∧ (isConditional j = true → compared = true) →
      s.nextInstrInRange ∧ usesOnlySetValues written compared s := by
    intro s j hf hl hb hu
    refine ⟨⟨fun _ => ⟨by show _ ≤ 255; omega, fun h => absurd (show _ = 255 from h) (by omega)⟩, fun i hi => ?_⟩,
      fun i hi => ?_⟩
    all_goals cases hf.symm.trans hi
    · exact hl
    · exact hu
  obtain rfl | ⟨hw, rfl | ⟨hc, rfl | rfl | rfl⟩⟩ := place written compared t ht
  · exact settle _ (.ldi 0 0) rfl rfl (by decide) ⟨nofun, nofun⟩
  · exact settle _ (.cmp 0 0) rfl rfl (by decide) ⟨by simp [registersRead, hw], nofun⟩
  · exact settle _ (.jeq 0) rfl rfl (by decide) ⟨by simp [registersRead, carefulCompared, State.writeFlags, State.writePc, hw],
      fun _ => hc⟩
  · exact settle _ (.ldi 0 0) rfl rfl (by decide) ⟨nofun, nofun⟩
  · exact settle _ (.cmp 0 0) rfl rfl (by decide) ⟨by simp [registersRead, hw], nofun⟩

theorem witness_FaultCauseFollowsItsRule :
    (unit 0 []).fc = none ∧ ((unit 0 []).takeFault .memRange).fc = some .memRange ∧
    ((unit 0 []).takeFault .regIndex).fc = some .regIndex ∧ ((unit 0 []).takeFault .pcRange).fc = some .pcRange ∧
    Reaches carefulLaunch carefulLoaded ∧ carefulLoaded.run ≠ .faulted ∧
    step (unit 254 [0x47, 0]) = .next ((unit 254 [0x47, 0]).takeFault .pcRange) ∧
    exec (.prn 5) (unit 253 []) = .next (((unit 253 []).emit 255).writePc 255) :=
  ⟨rfl, rfl, rfl, rfl, .tail .start ⟨rfl, rfl⟩, nofun, rfl, rfl⟩

end Sys2Proof.Tests
end

namespace Sys2Proof.Facts
/-! PROOFS. The unit's behaviour in one total form, for every instruction at once: the fault it raises, if any
(`execFault`), and the state it leaves where it raises none (`completion`). `exec_eq` and `running_step_cases` tie both
to `exec` and `step`; what follows them is said about these two alone. -/

open Sys2Proof.Machine Sys2Proof.Statements Sys2Proof.Laws

/-! ### The fault of an instruction -/

/-- The instruction ends with a sequential advance, where flag E has this value: it is the part of rule R75's check
that can depend on the state beyond PC (rules R97 to R99, R105). -/
def advances (i : Instr) (e : Bool) : Bool :=
  match i with
  | .ldi _ _ => true
  | .prn _ => true
  | .cmp _ _ => true
  | .jmp _ => false
  | .jeq _ => !e
  | .jne _ => e
  | .halt _ => false

/-- The fault an instruction at `pc` raises, by the first check that fails (rules R112, R113). -/
def execFault (i : Instr) (pc : Byte) (e : Bool) : Option FaultCause :=
  if 255 < pc.toNat + (i.length - 1) then some .memRange
  else if i.operandsLegal = false then some .regIndex
  else if advances i e = true ∧ 255 < pc.toNat + i.length then some .pcRange
  else none

@[simp] theorem length_ldi (reg imm8 : Byte) : (Instr.ldi reg imm8).length = 3 := rfl
@[simp] theorem length_prn (reg : Byte) : (Instr.prn reg).length = 2 := rfl
@[simp] theorem length_cmp (regA regB : Byte) : (Instr.cmp regA regB).length = 3 := rfl
@[simp] theorem length_jmp (reg : Byte) : (Instr.jmp reg).length = 2 := rfl
@[simp] theorem length_jeq (reg : Byte) : (Instr.jeq reg).length = 2 := rfl
@[simp] theorem length_jne (reg : Byte) : (Instr.jne reg).length = 2 := rfl
@[simp] theorem length_halt (op : Byte) : (Instr.halt op).length = 1 := rfl

theorem selectsRegister_iff (b : Byte) : selectsRegister b = true ↔ b.toNat ≤ 7 := by
  simp [selectsRegister]

theorem selectsRegister_eq_false_iff (b : Byte) : selectsRegister b = false ↔ 7 < b.toNat := by
  simp [selectsRegister]

/-- An instruction that raises no fault passed each check. -/
theorem execFault_eq_none_iff (i : Instr) (pc : Byte) (e : Bool) :
    execFault i pc e = none ↔ pc.toNat + (i.length - 1) ≤ 255 ∧ i.operandsLegal = true ∧
      (advances i e = true → pc.toNat + i.length ≤ 255) := by
  unfold execFault
  split
  · simp only [reduceCtorEq, false_iff]; omega
  · split
    · simp [*]
    · split
      · rename_i h
        simp only [reduceCtorEq, false_iff, not_and]
        intro _ _ hadv
        have := hadv h.1
        omega
      · simp_all

/-- An operand byte above 7 is a fault whatever the state (rules R53, R74). -/
theorem execFault_ne_none_of_illegal {i : Instr} (h : i.operandsLegal = false) (pc : Byte) (e : Bool) :
    execFault i pc e ≠ none := by
  rw [Ne, execFault_eq_none_iff, h]
  simp

/-- The halt never faults (rule R106). -/
@[simp] theorem execFault_halt (op pc : Byte) (e : Bool) : execFault (.halt op) pc e = none := by
  have := pc.isLt
  rw [execFault_eq_none_iff]
  exact ⟨by rw [length_halt]; omega, rfl, nofun⟩

/-- E decides about the advance of JEQ and JNE alone (rule R20). -/
theorem advances_of_not_conditional {i : Instr} (h : isConditional i = false) (e e' : Bool) :
    advances i e = advances i e' := by
  cases i with
  | jeq => cases h
  | jne => cases h
  | _ => rfl

theorem execFault_of_not_conditional {i : Instr} (h : isConditional i = false) (pc : Byte) (e e' : Bool) :
    execFault i pc e = execFault i pc e' := by
  rw [execFault, execFault, advances_of_not_conditional h e e']

/-! ### The state after an instruction that completes -/

/-- The register an operand byte selects where it selects one (rule R74). -/
def regOf (b : Byte) : RegNum := Fin.ofNat 8 b.toNat

theorem regOf_eq {b : Byte} {r : RegNum} (h : b.toNat = r.val) : regOf b = r := by
  ext
  simp [regOf, h]

theorem regOf_val {b : Byte} (h : b.toNat ≤ 7) : b.toNat = (regOf b).val := by
  simp [regOf, Nat.mod_eq_of_lt (Nat.lt_succ_of_le h)]

/-- PC advanced by n; no instruction that completes makes it wrap (`execFault_eq_none_iff`). -/
def pcPlus (n : Nat) (s : State) : Byte := BitVec.ofNat 8 (s.pc.toNat + n)

theorem pcPlus_toNat {n : Nat} {s : State} (h : s.pc.toNat + n ≤ 255) : (pcPlus n s).toNat = s.pc.toNat + n := by
  rw [pcPlus, BitVec.toNat_ofNat, Nat.mod_eq_of_lt (by omega)]

/-- What an instruction that raises no fault leaves (rules R85, R88, R92, R97 to R99, R105). -/
def completion (i : Instr) (s : State) : State :=
  match i with
  | .ldi reg imm8 => (s.writeReg (regOf reg) imm8).writePc (pcPlus 3 s)
  | .prn reg => (s.emit (s.readReg (regOf reg))).writePc (pcPlus 2 s)
  | .cmp regA regB =>
    (s.writeFlags (compareFlags (s.readReg (regOf regA)) (s.readReg (regOf regB)))).writePc (pcPlus 3 s)
  | .jmp reg => s.writePc (s.readReg (regOf reg))
  | .jeq reg => s.writePc (if s.fl.e then s.readReg (regOf reg) else pcPlus 2 s)
  | .jne reg => s.writePc (if s.fl.e then pcPlus 2 s else s.readReg (regOf reg))
  | .halt _ => s.enterHalted

/-- The one state an instruction leaves: the fault taken, or every write made (rule R114). -/
def outcome (i : Instr) (s : State) : State :=
  match execFault i s.pc s.fl.e with
  | some c => s.takeFault c
  | none => completion i s

theorem outcome_of_fault {i : Instr} {s : State} {c : FaultCause} (h : execFault i s.pc s.fl.e = some c) :
    outcome i s = s.takeFault c := by
  rw [outcome, h]

theorem outcome_of_no_fault {i : Instr} {s : State} (h : execFault i s.pc s.fl.e = none) :
    outcome i s = completion i s := by
  rw [outcome, h]

/-- The answer where an operand byte of the instruction has no cell (rule R112). -/
theorem memRange_answer {i : Instr} {s : State} (h : 255 < s.pc.toNat + (i.length - 1)) :
    (.next (s.takeFault .memRange) : StepResult) = .next (outcome i s) := by
  rw [outcome_of_fault (if_pos h)]

/-- The answer where the bytes are cells and a register operand is above 7 (rules R112, R113). -/
theorem regIndex_answer {i : Instr} {s : State} (h : s.pc.toNat + (i.length - 1) ≤ 255)
    (hl : i.operandsLegal = false) : (.next (s.takeFault .regIndex) : StepResult) = .next (outcome i s) := by
  rw [outcome_of_fault (c := .regIndex) (by rw [execFault, if_neg (by omega), if_pos hl])]

/-- The answer where only the sequential advance fails (rules R112, R113). -/
theorem pcRange_answer {i : Instr} {s : State} (h : s.pc.toNat + (i.length - 1) ≤ 255)
    (hl : i.operandsLegal = true) (hadv : advances i s.fl.e = true) (hpc : 255 < s.pc.toNat + i.length) :
    (.next (s.takeFault .pcRange) : StepResult) = .next (outcome i s) := by
  rw [outcome_of_fault (c := .pcRange)
    (by rw [execFault, if_neg (by omega), if_neg (by simp [hl]), if_pos ⟨hadv, hpc⟩])]

/-- The answer where every check passes. -/
theorem completion_answer {i : Instr} {s t : State} (h : s.pc.toNat + (i.length - 1) ≤ 255)
    (hl : i.operandsLegal = true) (hadv : advances i s.fl.e = true → s.pc.toNat + i.length ≤ 255)
    (ht : completion i s = t) : (.next t : StepResult) = .next (outcome i s) := by
  rw [outcome_of_no_fault ((execFault_eq_none_iff _ _ _).mpr ⟨h, hl, hadv⟩), ht]

theorem selectsRegister_of_eq {b : Byte} {r : RegNum} (h : b.toNat = r.val) : selectsRegister b = true :=
  (selectsRegister_iff b).mpr (by have := r.isLt; omega)

theorem execLdi_eq (reg imm8 : Byte) (s : State) : execLdi reg imm8 s = .next (outcome (.ldi reg imm8) s) := by
  obtain ⟨h, he⟩ | ⟨h, hr, he⟩ | ⟨h, hr, he⟩ | ⟨r, h, hr, he⟩ := execLdi_cases reg imm8 s
  · exact he.trans (memRange_answer (by rw [length_ldi]; omega))
  · exact he.trans (regIndex_answer (by rw [length_ldi]; omega) ((selectsRegister_eq_false_iff reg).mpr hr))
  · exact he.trans (pcRange_answer (by rw [length_ldi]; omega) ((selectsRegister_iff reg).mpr hr) rfl
      (by rw [length_ldi]; omega))
  · exact he.trans (completion_answer (by rw [length_ldi]; omega) (selectsRegister_of_eq hr) (by rw [length_ldi]; omega)
      (by rw [completion, regOf_eq hr, pcPlus]))

theorem execPrn_eq (reg : Byte) (s : State) : execPrn reg s = .next (outcome (.prn reg) s) := by
  obtain ⟨h, he⟩ | ⟨h, hr, he⟩ | ⟨h, hr, he⟩ | ⟨r, h, hr, he⟩ := execPrn_cases reg s
  · exact he.trans (memRange_answer (by rw [length_prn]; omega))
  · exact he.trans (regIndex_answer (by rw [length_prn]; omega) ((selectsRegister_eq_false_iff reg).mpr hr))
  · exact he.trans (pcRange_answer (by rw [length_prn]; omega) ((selectsRegister_iff reg).mpr hr) rfl
      (by rw [length_prn]; omega))
  · exact he.trans (completion_answer (by rw [length_prn]; omega) (selectsRegister_of_eq hr) (by rw [length_prn]; omega)
      (by rw [completion, regOf_eq hr, pcPlus]))

theorem execCmp_eq (regA regB : Byte) (s : State) : execCmp regA regB s = .next (outcome (.cmp regA regB) s) := by
  obtain ⟨h, he⟩ | ⟨h, hr, he⟩ | ⟨h, ha, hb, he⟩ | ⟨a, b, h, ha, hb, he⟩ := execCmp_cases regA regB s
  · exact he.trans (memRange_answer (by rw [length_cmp]; omega))
  · exact he.trans (regIndex_answer (by rw [length_cmp]; omega)
      (by simpa only [Instr.operandsLegal, Bool.and_eq_false_iff, selectsRegister_eq_false_iff]))
  · exact he.trans (pcRange_answer (by rw [length_cmp]; omega)
      (by simp [Instr.operandsLegal, selectsRegister_iff, ha, hb]) rfl (by rw [length_cmp]; omega))
  · exact he.trans (completion_answer (by rw [length_cmp]; omega)
      (by simp [Instr.operandsLegal, selectsRegister_of_eq ha, selectsRegister_of_eq hb]) (by rw [length_cmp]; omega)
      (by rw [completion, regOf_eq ha, regOf_eq hb, pcPlus]))

theorem execJmp_eq (reg : Byte) (s : State) : execJmp reg s = .next (outcome (.jmp reg) s) := by
  obtain ⟨h, he⟩ | ⟨h, hr, he⟩ | ⟨r, h, hr, he⟩ := execJmp_cases reg s
  · exact he.trans (memRange_answer (by rw [length_jmp]; omega))
  · exact he.trans (regIndex_answer (by rw [length_jmp]; omega) ((selectsRegister_eq_false_iff reg).mpr hr))
  · exact he.trans (completion_answer (by rw [length_jmp]; omega) (selectsRegister_of_eq hr)
      (fun hadv => absurd hadv Bool.false_ne_true) (by rw [completion, regOf_eq hr]))

/-- A two-byte instruction that advances exactly when it is not taken, and then writes PC alone, does what
`conditionalJump` does: JEQ and JNE are two such. -/
theorem conditionalJump_eq {i : Instr} {reg : Byte} {taken : Bool} {s : State} (hlen : i.length = 2)
    (hlegal : i.operandsLegal = selectsRegister reg) (hadv : advances i s.fl.e = !taken)
    (hdone : completion i s = s.writePc (if taken then s.readReg (regOf reg) else pcPlus 2 s)) :
    conditionalJump taken reg s = .next (outcome i s) := by
  obtain ⟨h, he⟩ | ⟨h, hr, he⟩ | ⟨h, hr, ht, he⟩ | ⟨r, h, hr, ht, he⟩ | ⟨h, hr, ht, he⟩ :=
    conditionalJump_cases taken reg s
  · exact he.trans (memRange_answer (by omega))
  · exact he.trans (regIndex_answer (by omega) (hlegal.trans ((selectsRegister_eq_false_iff reg).mpr hr)))
  · exact he.trans (pcRange_answer (by omega) (hlegal.trans ((selectsRegister_iff reg).mpr hr))
      (by rw [hadv, ht, Bool.not_false]) (by omega))
  · exact he.trans (completion_answer (by omega) (hlegal.trans (selectsRegister_of_eq hr)) (by simp [hadv, ht])
      (by rw [hdone, ht, if_pos rfl, regOf_eq hr]))
  · exact he.trans (completion_answer (by omega) (hlegal.trans ((selectsRegister_iff reg).mpr hr)) (by omega)
      (by rw [hdone, ht, if_neg Bool.false_ne_true, pcPlus]))

/-- Every instruction, in every state, leaves its one outcome: it is never cut off. -/
theorem exec_eq (i : Instr) (s : State) : exec i s = .next (outcome i s) := by
  cases i with
  | ldi reg imm8 => exact execLdi_eq reg imm8 s
  | prn reg => exact execPrn_eq reg s
  | cmp regA regB => exact execCmp_eq regA regB s
  | jmp reg => exact execJmp_eq reg s
  | jeq reg => exact conditionalJump_eq rfl rfl rfl rfl
  | jne reg =>
    exact conditionalJump_eq rfl rfl (Bool.not_not _).symm (by cases h : s.fl.e <;> simp [completion, h])
  | halt op => rw [outcome_of_no_fault (execFault_halt ..)]; rfl

theorem exec_next_iff {i : Instr} {s t : State} : exec i s = .next t ↔ t = outcome i s := by
  rw [exec_eq, Host.Outcome.next.injEq, eq_comm]

/-- An instruction's two ends: one fault taken, or every write made. -/
theorem outcome_cases (i : Instr) (s : State) :
    (∃ c, execFault i s.pc s.fl.e = some c ∧ outcome i s = s.takeFault c) ∨
    (execFault i s.pc s.fl.e = none ∧ outcome i s = completion i s) := by
  cases h : execFault i s.pc s.fl.e with
  | some c => exact .inl ⟨c, rfl, outcome_of_fault h⟩
  | none => exact .inr ⟨rfl, outcome_of_no_fault h⟩

/-! ### What a completion writes and what it leaves -/

@[simp] theorem completion_fc (i : Instr) (s : State) : (completion i s).fc = s.fc := by
  cases i <;> rfl

@[simp] theorem completion_mem (i : Instr) (s : State) : (completion i s).mem = s.mem := by
  cases i <;> rfl

/-- Only the halt writes RUN (rule R105). -/
theorem completion_run_of_not_halt {i : Instr} (h : ∀ op, i ≠ .halt op) (s : State) :
    (completion i s).run = s.run := by
  cases i with
  | halt op => exact absurd rfl (h op)
  | _ => rfl

/-- No completion is a fault (rules R70, R105). -/
theorem completion_run_ne_faulted {i : Instr} {s : State} (h : s.run ≠ .faulted) :
    (completion i s).run ≠ .faulted := by
  cases i with
  | halt op => exact nofun
  | _ => exact h

/-- Only CMP writes FL (rule R20). -/
theorem completion_fl_of_not_cmp {i : Instr} (h : ∀ a b, i ≠ .cmp a b) (s : State) :
    (completion i s).fl = s.fl := by
  cases i with
  | cmp a b => exact absurd rfl (h a b)
  | _ => rfl

/-- A comparison sets exactly one flag (rules R21, R93). -/
theorem compareFlags_oneHot (va vb : Byte) : (compareFlags va vb).oneHot = true := by
  rcases Nat.lt_trichotomy va.toNat vb.toNat with h | h | h
  · simp [compareFlags, Flags.oneHot, h, Nat.lt_asymm h, h.ne]
  · simp [compareFlags, Flags.oneHot, h]
  · simp [compareFlags, Flags.oneHot, h, Nat.lt_asymm h, h.ne']

/-- A completion keeps or sets flags of which one is set (rules R20, R21). -/
theorem completion_fl_oneHot {i : Instr} {s : State} (h : s.fl.oneHot = true) :
    (completion i s).fl.oneHot = true := by
  cases i with
  | cmp a b => exact compareFlags_oneHot _ _
  | _ => exact h

/-- OUT after a completion: as before, or PRN's value appended (rules R25, R88). -/
theorem completion_out_cases (i : Instr) (s : State) :
    ((completion i s).out = s.out ∧ ∀ reg, i ≠ .prn reg) ∨
    ∃ reg, i = .prn reg ∧ (completion i s).out = s.out ++ [s.readReg (regOf reg)] := by
  cases i with
  | prn reg => exact .inr ⟨reg, rfl, rfl⟩
  | _ => exact .inl ⟨rfl, nofun⟩

/-- Only LDI writes a register, and only its own (rule R12). -/
theorem completion_readReg {i : Instr} {q : RegNum} (hl : i.operandsLegal = true)
    (hq : q.val ∉ registersWritten i) (s : State) : (completion i s).readReg q = s.readReg q := by
  cases i with
  | ldi reg imm8 =>
    have hreg := regOf_val ((selectsRegister_iff reg).mp hl)
    exact State.readReg_writeReg_ne s (regOf reg) q imm8 fun h => hq (by simp [registersWritten, hreg, h])
  | _ => rfl

theorem operandsLegal_of_no_fault {i : Instr} {pc : Byte} {e : Bool} (h : execFault i pc e = none) :
    i.operandsLegal = true :=
  ((execFault_eq_none_iff _ _ _).mp h).2.1

/-! ### Fetched instructions -/

theorem mem_sixOpcodes_iff (op : Byte) : op ∈ sixOpcodes ↔ recognised op = true := by
  simp [sixOpcodes, recognised, opLdi, opPrn, opCmp, opJmp, opJeq, opJne, or_assoc]

theorem instrLength_eq_three_iff (op : Byte) : instrLength op = 3 ↔ op = opLdi ∨ op = opCmp := by
  unfold instrLength
  split
  · simp [*]
  · split <;> simp [*]

theorem instrLength_eq_two_iff (op : Byte) :
    instrLength op = 2 ↔ op = opPrn ∨ op = opJmp ∨ op = opJeq ∨ op = opJne := by
  unfold instrLength
  split
  · rename_i h
    rcases h with rfl | rfl <;> decide
  · rename_i h
    rw [not_or] at h
    split <;> simp_all [recognised, or_assoc]

theorem instrLength_ne_one_iff (op : Byte) : instrLength op ≠ 1 ↔ recognised op = true := by
  unfold instrLength
  split
  · rename_i h
    rcases h with rfl | rfl <;> decide
  · split <;> simp [*]

/-- What fetching answers is the instruction the bytes at PC are: its opcode is the byte there, it is well formed, and
its first operand is the next byte (rules R71 to R73). -/
theorem fetch_ok {s : State} {i : Instr} (hf : fetch s = .ok i) :
    i.opcode = fetchOpcode s ∧ i.wf = true ∧ ∀ b ∈ i.operandBytes.head?, b = byteAfterPc s 1 := by
  rw [fetch_eq] at hf
  split at hf
  · rename_i h3
    split at hf
    · cases hf
    · cases hf
      obtain h | h := (instrLength_eq_three_iff _).mp h3 <;> rw [h] <;>
        exact ⟨rfl, rfl, fun b hb => (Option.mem_some.mp hb).symm⟩
  · rename_i h3
    split at hf
    · rename_i h2
      split at hf
      · cases hf
      · cases hf
        obtain h | h | h | h := (instrLength_eq_two_iff _).mp h2 <;> rw [h] <;>
          exact ⟨rfl, rfl, fun b hb => (Option.mem_some.mp hb).symm⟩
    · rename_i h2
      cases hf
      have h1 : instrLength (fetchOpcode s) = 1 :=
        (instrLength_cases _).resolve_right (not_or.mpr ⟨h2, h3⟩)
      have hop := mt (instrLength_ne_one_iff _).mpr (not_not.mpr h1)
      exact ⟨rfl, by rw [Instr.wf, Bool.eq_false_iff.mpr hop, Bool.not_false], nofun⟩

/-- Fetching faults only where a recognised opcode's last byte has no cell (rules R60, R73). -/
theorem fetch_fault {s : State} {c : FaultCause} (hf : fetch s = .error c) :
    recognised (fetchOpcode s) = true ∧ 255 < s.lastByteAddr := by
  rw [fetch_eq] at hf
  split at hf
  · rename_i h3
    split at hf
    · exact ⟨(instrLength_ne_one_iff _).mp (by omega), by rw [State.lastByteAddr]; omega⟩
    · cases hf
  · split at hf
    · split at hf
      · exact ⟨(instrLength_ne_one_iff _).mp (by omega), by rw [State.lastByteAddr]; omega⟩
      · cases hf
    · cases hf

/-- A fetched instruction is as long as the opcode byte at PC says (rule R57). -/
theorem length_of_fetch {s : State} {i : Instr} (hf : fetch s = .ok i) :
    i.length = instrLength (fetchOpcode s) := by
  obtain ⟨hop, hwf, -⟩ := fetch_ok hf
  rw [← hop]
  cases i with
  | ldi reg imm8 => exact (EncodingShape.ldi reg imm8).2 hwf
  | prn reg => exact (EncodingShape.prn reg).2 hwf
  | cmp regA regB => exact (EncodingShape.cmp regA regB).2 hwf
  | jmp reg => exact (EncodingShape.jmp reg).2 hwf
  | jeq reg => exact (EncodingShape.jeq reg).2 hwf
  | jne reg => exact (EncodingShape.jne reg).2 hwf
  | halt op => exact (EncodingShape.halt op).2 hwf

/-- A fetched instruction is a halt exactly where the opcode byte is not one of the six (rule R56). -/
theorem recognised_of_not_halt {s : State} {i : Instr} (hf : fetch s = .ok i) (h : ∀ op, i ≠ .halt op) :
    recognised (fetchOpcode s) = true := by
  obtain ⟨hop, -, -⟩ := fetch_ok hf
  rw [← hop]
  cases i with
  | halt op => exact absurd rfl (h op)
  | _ => rfl

theorem not_recognised_of_halt {s : State} {op : Byte} (hf : fetch s = .ok (.halt op)) :
    recognised (fetchOpcode s) = false := by
  obtain ⟨hop, hwf, -⟩ := fetch_ok hf
  rw [← hop]
  exact (Bool.not_eq_true' _).mp hwf

theorem not_halt_of_recognised {s : State} {i : Instr} (hf : fetch s = .ok i)
    (hrec : recognised (fetchOpcode s) = true) (op : Byte) : i ≠ .halt op := by
  rintro rfl
  rw [not_recognised_of_halt hf] at hrec
  cases hrec

/-- A fetched instruction of a recognised opcode advances unless its jump is taken (rules R97 to R99, R125). -/
theorem advances_of_fetch {s : State} {i : Instr} (hf : fetch s = .ok i) (hrec : recognised (fetchOpcode s) = true) :
    advances i s.fl.e = !s.jumpTaken := by
  obtain ⟨hop, -, -⟩ := fetch_ok hf
  rw [State.jumpTaken, ← hop]
  cases i with
  | halt op => exact absurd rfl (not_halt_of_recognised hf hrec op)
  | jeq reg => cases s.fl.e <;> rfl
  | jne reg => cases s.fl.e <;> rfl
  | _ => rfl

/-! ### A step of a RUNNING unit -/

/-- The two ends of a RUNNING unit's step: a fault of a recognised opcode, in fetch or later, or the completion of the
instruction at PC (rule R70). -/
theorem running_step_cases {s t : State} (hrun : s.run = .running) (h : step s = .next t) :
    (∃ c, recognised (fetchOpcode s) = true ∧ t = s.takeFault c) ∨
    ∃ i, fetch s = .ok i ∧ execFault i s.pc s.fl.e = none ∧ t = completion i s := by
  obtain ⟨hstop, -⟩ | ⟨-, hf, ht⟩ | ⟨i, -, hf, he⟩ := step_next_cases h
  · exact absurd hrun hstop
  · exact .inl ⟨_, (fetch_fault hf).1, ht⟩
  · obtain rfl := exec_next_iff.mp he
    obtain ⟨c, hc, ht⟩ | ⟨hc, ht⟩ := outcome_cases i s
    · refine .inl ⟨c, recognised_of_not_halt hf fun op hi => ?_, ht⟩
      rw [hi, execFault_halt] at hc
      cases hc
    · exact .inr ⟨i, hf, hc, ht⟩

/-- The three ends of a step: a stopped unit stays, a RUNNING one faults or completes its instruction. -/
theorem step_cases {s t : State} (h : step s = .next t) :
    (s.run ≠ .running ∧ t = s) ∨
    (∃ c, s.run = .running ∧ t = s.takeFault c) ∨
    ∃ i, s.run = .running ∧ fetch s = .ok i ∧ t = completion i s := by
  by_cases hrun : s.run = .running
  · obtain ⟨c, -, ht⟩ | ⟨i, hf, -, ht⟩ := running_step_cases hrun h
    · exact .inr (.inl ⟨c, hrun, ht⟩)
    · exact .inr (.inr ⟨i, hrun, hf, ht⟩)
  · rw [step_of_stopped hrun, Host.Outcome.next.injEq] at h
    exact .inl ⟨hrun, h.symm⟩

/-- Every state has a next state. -/
theorem step_total (s : State) : ∃ t, step s = .next t := by
  by_cases hrun : s.run = .running
  · cases hf : fetch s with
    | ok i => exact ⟨_, (step_of_fetch_ok hrun hf).trans (exec_eq i s)⟩
    | error c => exact ⟨_, step_of_fetch_error hrun hf⟩
  · exact ⟨s, step_of_stopped hrun⟩

/-- A fetched instruction that raises no fault runs to its completion. -/
theorem step_of_no_fault {s : State} {i : Instr} (hrun : s.run = .running) (hf : fetch s = .ok i)
    (hc : execFault i s.pc s.fl.e = none) : step s = .next (completion i s) := by
  rw [step_of_fetch_ok hrun hf, exec_eq, outcome_of_no_fault hc]

/-- PC after an instruction that advances, as a sum of numbers: it never wraps (rules R16, R18). -/
theorem completion_pc_of_advances {i : Instr} {s : State} (hc : execFault i s.pc s.fl.e = none)
    (hadv : advances i s.fl.e = true) : (completion i s).pc.toNat = s.pc.toNat + i.length := by
  have hle := ((execFault_eq_none_iff _ _ _).mp hc).2.2 hadv
  cases i with
  | ldi reg imm8 => exact pcPlus_toNat hle
  | prn reg => exact pcPlus_toNat hle
  | cmp regA regB => exact pcPlus_toNat hle
  | jmp reg => cases hadv
  | jeq reg =>
    rw [completion, State.writePc_pc, if_neg (by simpa [advances] using hadv)]
    exact pcPlus_toNat hle
  | jne reg =>
    rw [completion, State.writePc_pc, if_pos (show s.fl.e = true from hadv)]
    exact pcPlus_toNat hle
  | halt op => cases hadv

/-- PC after an instruction whose jump is taken: its register's value (rules R97 to R99). -/
theorem completion_pc_of_jumpTaken {i : Instr} {s : State} (hf : fetch s = .ok i)
    (hc : execFault i s.pc s.fl.e = none) (hrec : recognised (fetchOpcode s) = true) (hj : s.jumpTaken = true) :
    ∃ r : RegNum, (byteAfterPc s 1).toNat = r.val ∧ (completion i s).pc = s.readReg r := by
  obtain ⟨-, -, hfirst⟩ := fetch_ok hf
  have hadv : advances i s.fl.e = false := by rw [advances_of_fetch hf hrec, hj, Bool.not_true]
  have hl := operandsLegal_of_no_fault hc
  have target : ∀ reg ∈ i.operandBytes.head?, selectsRegister reg = true →
      (byteAfterPc s 1).toNat = (regOf reg).val := fun reg hmem hreg => by
    rw [← hfirst reg hmem, ← regOf_val ((selectsRegister_iff reg).mp hreg)]
  cases i with
  | jmp reg => exact ⟨regOf reg, target reg rfl hl, rfl⟩
  | jeq reg => exact ⟨regOf reg, target reg rfl hl, if_pos (by simpa [advances] using hadv)⟩
  | jne reg => exact ⟨regOf reg, target reg rfl hl, if_neg (by simpa [advances] using hadv)⟩
  | halt op => exact absurd rfl (not_halt_of_recognised hf hrec op)
  | _ => cases hadv

/-- What an unrecognised opcode's instruction does is the halt (rules R56, R105). -/
theorem completion_of_not_recognised {i : Instr} {s : State} (hf : fetch s = .ok i)
    (hrec : recognised (fetchOpcode s) = false) : completion i s = s.enterHalted := by
  obtain ⟨hop, -, -⟩ := fetch_ok hf
  rw [← hop] at hrec
  cases i with
  | halt op => rfl
  | _ => cases hrec

end Sys2Proof.Facts

namespace Sys2Proof.StateProofs
/-! PROOFS. The statements about the state (spec/10_state.md), over `execFault`, `completion` and
`running_step_cases`. -/

open Sys2Proof.Machine Sys2Proof.Statements Sys2Proof.Laws Sys2Proof.Facts

/-! ### The invariant -/

/-- FC names a cause exactly while RUN = FAULTED (rule R24): the half of the invariant that needs no bound on the
program. -/
def CauseNamedWhenFaulted (s : State) : Prop :=
  s.fc.isSome = true ↔ s.run = .faulted

theorem CauseNamedWhenFaulted.takeFault (s : State) (c : FaultCause) : CauseNamedWhenFaulted (s.takeFault c) := by
  simp [CauseNamedWhenFaulted]

theorem CauseNamedWhenFaulted.completion {s : State} (h : CauseNamedWhenFaulted s) (hrun : s.run = .running)
    (i : Instr) : CauseNamedWhenFaulted (completion i s) := by
  have hne : s.run ≠ .faulted := by simp [hrun]
  rw [CauseNamedWhenFaulted, completion_fc, iff_false_right (completion_run_ne_faulted hne)]
  exact fun hfc => hne (h.mp hfc)

theorem CauseNamedWhenFaulted.step {s t : State} (h : CauseNamedWhenFaulted s) (hs : step s = .next t) :
    CauseNamedWhenFaulted t := by
  obtain ⟨-, rfl⟩ | ⟨c, -, rfl⟩ | ⟨i, hrun, -, rfl⟩ := step_cases hs
  · exact h
  · exact .takeFault s c
  · exact h.completion hrun i

/-- No step writes memory (rule R35). -/
theorem step_mem {s t : State} (hs : step s = .next t) : t.mem = s.mem := by
  obtain ⟨-, rfl⟩ | ⟨c, -, rfl⟩ | ⟨i, -, -, rfl⟩ := step_cases hs
  · rfl
  · rfl
  · exact completion_mem i s

/-- Settles O17: memory is not written, and FC is written only together with RUN. -/
theorem stepKeepsInvariant : Obligations.StepKeepsInvariant := by
  intro s t ⟨hmem, hfc⟩ hs
  exact ⟨by rw [step_mem hs, hmem], CauseNamedWhenFaulted.step hfc hs⟩

/-- Settles O18: IMAGE is canonical, and a launch state is RUNNING with FC = NONE. -/
theorem launchMeetsInvariant : Obligations.LaunchMeetsInvariant :=
  ⟨⟨reset_mem_wf, by simp [State.reset]⟩,
    fun _ program h => ⟨image_wf program h, by simp [State.launch]⟩⟩

/-! ### The outcomes of a step -/

/-- Settles O13: the halt is the completion of an unrecognised opcode, every other completion leaves RUN and FC. -/
theorem stepHasOneOfThreeOutcomes : Obligations.StepHasOneOfThreeOutcomes := by
  intro s hrun
  obtain ⟨t, hs⟩ := step_total s
  refine ⟨t, hs, ?_⟩
  rw [mem_sixOpcodes_iff]
  obtain ⟨c, hop, rfl⟩ | ⟨i, hf, -, rfl⟩ := running_step_cases hrun hs
  · exact .inr (.inr ⟨hop, c, rfl⟩)
  · by_cases hi : ∃ op, i = .halt op
    · obtain ⟨op, rfl⟩ := hi
      exact .inr (.inl ⟨(Bool.not_eq_true _).mpr (not_recognised_of_halt hf), rfl⟩)
    · have hi' : ∀ op, i ≠ .halt op := fun op h => hi ⟨op, h⟩
      exact .inl ⟨recognised_of_not_halt hf hi', (completion_run_of_not_halt hi' s).trans hrun, completion_fc i s⟩

/-- Settles O16: `step` looks at RUN first, and reset writes it. -/
theorem stoppedStatesStayUntilReset : Obligations.StoppedStatesStayUntilReset :=
  fun _ _ hrun => ⟨step_of_stopped hrun, fun ⟨_, hrunning, _⟩ => hrun hrunning, rfl⟩

/-! ### Non-interference

Two states that agree on a set of registers R, on the flags where F holds, and on everything else: an instruction that
reads no more than that leaves two states that agree in the same way, and on what it wrote besides. -/

/-- The two states agree, the registers outside R aside, and the flags unless F. -/
structure AgreeOn (R : RegNum → Prop) (F : Prop) (t u : State) : Prop where
  pc : u.pc = t.pc
  run : u.run = t.run
  fc : u.fc = t.fc
  mem : u.mem = t.mem
  out : u.out = t.out
  reg : ∀ r, R r → u.readReg r = t.readReg r
  fl : F → u.fl = t.fl

section AgreeOn
variable {R R' : RegNum → Prop} {F F' : Prop} {t u : State}

theorem AgreeOn.mono (h : AgreeOn R F t u) (hR : ∀ r, R' r → R r) (hF : F' → F) : AgreeOn R' F' t u :=
  { h with reg := fun r hr => h.reg r (hR r hr), fl := fun hf => h.fl (hF hf) }

theorem AgreeOn.pcPlus_eq (h : AgreeOn R F t u) (n : Nat) : pcPlus n u = pcPlus n t := by
  rw [pcPlus, pcPlus, h.pc]

theorem AgreeOn.writePc (h : AgreeOn R F t u) {a b : Byte} (hab : b = a) : AgreeOn R F (t.writePc a) (u.writePc b) :=
  { h with pc := hab }

theorem AgreeOn.writeReg (h : AgreeOn R F t u) (q : RegNum) (v : Byte) :
    AgreeOn (fun r => R r ∨ r = q) F (t.writeReg q v) (u.writeReg q v) :=
  { h with
    reg := fun r hr => by
      by_cases hrq : r = q
      · rw [hrq, State.readReg_writeReg_same, State.readReg_writeReg_same]
      · rw [State.readReg_writeReg_ne _ _ _ _ hrq, State.readReg_writeReg_ne _ _ _ _ hrq,
          h.reg r (hr.resolve_right hrq)] }

theorem AgreeOn.writeFlags (h : AgreeOn R F t u) {f g : Flags} (hfg : g = f) :
    AgreeOn R F' (t.writeFlags f) (u.writeFlags g) :=
  { h with fl := fun _ => hfg }

theorem AgreeOn.emit (h : AgreeOn R F t u) {v w : Byte} (hvw : w = v) : AgreeOn R F (t.emit v) (u.emit w) :=
  { h with out := by rw [State.emit_out, State.emit_out, h.out, hvw] }

theorem AgreeOn.takeFault (h : AgreeOn R F t u) (c : FaultCause) : AgreeOn R F (t.takeFault c) (u.takeFault c) :=
  { h with run := rfl, fc := rfl }

theorem AgreeOn.enterHalted (h : AgreeOn R F t u) : AgreeOn R F t.enterHalted u.enterHalted :=
  { h with run := rfl }

/-- The registers an operand byte selects agree where the byte's number is one that is read. -/
theorem AgreeOn.readReg_operand (h : AgreeOn R F t u) {numbers : List Nat}
    (hreads : ∀ r : RegNum, r.val ∈ numbers → R r) {reg : Byte} (hl : selectsRegister reg = true)
    (hmem : reg.toNat ∈ numbers) :
    u.readReg (regOf reg) = t.readReg (regOf reg) :=
  h.reg _ (hreads _ (regOf_val ((selectsRegister_iff reg).mp hl) ▸ hmem))

/-- An instruction that completes gives states that agree as before and on what it wrote, if the states agreed on what
it reads (rules R12, R20). -/
theorem AgreeOn.completion (h : AgreeOn R F t u) {i : Instr} (hl : i.operandsLegal = true)
    (hreads : ∀ r : RegNum, r.val ∈ registersRead i t → R r) (he : isConditional i = true → u.fl.e = t.fl.e) :
    AgreeOn (fun r => R r ∨ r.val ∈ registersWritten i) (F ∨ isCompare i = true) (completion i t)
      (completion i u) := by
  cases i with
  | ldi reg imm8 =>
    refine ((h.writeReg (regOf reg) imm8).writePc (h.pcPlus_eq 3)).mono ?_ (by simp [isCompare])
    exact fun r hr => hr.imp_right fun hmem => (regOf_eq (List.mem_singleton.mp hmem).symm).symm
  | prn reg =>
    exact ((h.emit (h.readReg_operand hreads hl (by simp [registersRead]))).writePc (h.pcPlus_eq 2)).mono
      (by simp [registersWritten]) (by simp [isCompare])
  | cmp regA regB =>
    obtain ⟨ha, hb⟩ := Bool.and_eq_true_iff.mp hl
    have hflags : compareFlags (u.readReg (regOf regA)) (u.readReg (regOf regB)) =
        compareFlags (t.readReg (regOf regA)) (t.readReg (regOf regB)) := by
      rw [h.readReg_operand hreads ha (by simp [registersRead]), h.readReg_operand hreads hb (by simp [registersRead])]
    exact ((h.writeFlags hflags).writePc (h.pcPlus_eq 3)).mono (by simp [registersWritten]) id
  | jmp reg =>
    exact (h.writePc (h.readReg_operand hreads hl (by simp [registersRead]))).mono (by simp [registersWritten])
      (by simp [isCompare])
  | jeq reg =>
    refine (h.writePc ?_).mono (by simp [registersWritten]) (by simp [isCompare])
    rw [he rfl]
    split
    · rename_i htaken
      exact h.readReg_operand hreads hl (by simp [registersRead, htaken])
    · exact h.pcPlus_eq 2
  | jne reg =>
    refine (h.writePc ?_).mono (by simp [registersWritten]) (by simp [isCompare])
    rw [he rfl]
    split
    · exact h.pcPlus_eq 2
    · rename_i htaken
      exact h.readReg_operand hreads hl (by simp [registersRead, htaken])
  | halt op => exact h.enterHalted.mono (by simp [registersWritten]) (by simp [isCompare])

theorem AgreeOn.execFault_eq (h : AgreeOn R F t u) {i : Instr} (he : isConditional i = true → u.fl.e = t.fl.e) :
    execFault i u.pc u.fl.e = execFault i t.pc t.fl.e := by
  rw [h.pc]
  by_cases hi : isConditional i = true
  · rw [he hi]
  · exact execFault_of_not_conditional (Bool.eq_false_iff.mpr hi) _ _ _

/-- An instruction leaves states that agree as before, whether it completes or faults. -/
theorem AgreeOn.outcome (h : AgreeOn R F t u) {i : Instr} (hreads : ∀ r : RegNum, r.val ∈ registersRead i t → R r)
    (he : isConditional i = true → u.fl.e = t.fl.e) : AgreeOn R F (outcome i t) (outcome i u) := by
  have hfault := h.execFault_eq he
  obtain ⟨c, hc, ht⟩ | ⟨hc, ht⟩ := outcome_cases i t
  · rw [ht, outcome_of_fault (hfault.trans hc)]
    exact h.takeFault c
  · rw [ht, outcome_of_no_fault (hfault.trans hc)]
    exact (h.completion (operandsLegal_of_no_fault hc) hreads he).mono (fun _ => .inl) .inl

end AgreeOn

/-- Writing one register leaves a state that agrees on the others. -/
theorem agreeOn_writeReg (s : State) (q : RegNum) (v : Byte) : AgreeOn (· ≠ q) True s (s.writeReg q v) :=
  ⟨rfl, rfl, rfl, rfl, rfl, fun r hr => State.readReg_writeReg_ne s q r v hr, fun _ => rfl⟩

/-- Writing the flags leaves a state that agrees on all registers. -/
theorem agreeOn_writeFlags (s : State) (f : Flags) : AgreeOn (fun _ => True) False s (s.writeFlags f) :=
  ⟨rfl, rfl, rfl, rfl, rfl, fun _ _ => rfl, False.elim⟩

theorem AgreeOn.agreeButFlags {t u : State} (h : AgreeOn (fun _ => True) False t u) : agreeButFlags t u :=
  ⟨Vector.ext fun k hk => h.reg ⟨k, hk⟩ trivial, h.pc, h.run, h.fc, h.mem, h.out⟩

/-- Changing flags an instruction does not read changes nothing in its result but the flags (rule R20). -/
theorem exec_writeFlags {i : Instr} {s t u : State} {f : Flags} (he : isConditional i = true → f.e = s.fl.e)
    (ht : exec i s = .next t) (hu : exec i (s.writeFlags f) = .next u) : agreeButFlags t u := by
  rw [exec_next_iff.mp ht, exec_next_iff.mp hu]
  exact ((agreeOn_writeFlags s f).outcome (fun _ _ => trivial) he).agreeButFlags

/-- Settles O20: LDI alone writes a register, and `AgreeOn.outcome` with R = all registers but q. -/
theorem registersTouchedAreTheTables : Obligations.RegistersTouchedAreTheTables := by
  intro i s t ht
  obtain rfl := exec_next_iff.mp ht
  refine ⟨fun hl => ?_, fun q hq => ?_, fun q v u hq hu => ?_⟩
  · obtain ⟨c, -, h⟩ | ⟨hc, -⟩ := outcome_cases i s
    · rw [h]
      exact ⟨rfl, rfl⟩
    · exact absurd hc (execFault_ne_none_of_illegal hl _ _)
  · obtain ⟨c, -, h⟩ | ⟨hc, h⟩ := outcome_cases i s
    · rw [h]
      rfl
    · rw [h]
      exact completion_readReg (operandsLegal_of_no_fault hc) hq s
  · obtain rfl := exec_next_iff.mp hu
    have h := (agreeOn_writeReg s q v).outcome (i := i) (fun r hr hrq => hq (hrq ▸ hr)) fun _ => rfl
    exact ⟨h.pc, h.fl trivial, h.run, h.fc, h.mem, h.out, h.reg⟩

/-- Settles O21: CMP alone writes a flag; L and G are in no instruction's reads and E in the conditional jumps' alone. -/
theorem flagsAreWrittenByCmpAndReadAsTabulated : Obligations.FlagsAreWrittenByCmpAndReadAsTabulated := by
  intro i s t ht
  refine ⟨fun hi => ?_, fun l g u hu => exec_writeFlags (f := ⟨l, g, s.fl.e⟩) (fun _ => rfl) ht hu,
    fun hi f u hu => ?_⟩
  · obtain rfl := exec_next_iff.mp ht
    obtain ⟨c, -, h⟩ | ⟨-, h⟩ := outcome_cases i s
    · rw [h, State.takeFault_fl]
    · rw [h, completion_fl_of_not_cmp hi]
  · refine exec_writeFlags (fun hcond => ?_) ht hu
    cases i with
    | jeq reg => exact absurd rfl (hi reg).1
    | jne reg => exact absurd rfl (hi reg).2
    | _ => cases hcond

/-! ### OUT -/

/-- OUT after an instruction: as before, for a PRN only where it faulted; or a PRN's value appended (rules R25, R88). -/
theorem outcome_out_cases (i : Instr) (s : State) :
    ((outcome i s).out = s.out ∧ ∀ reg, i = .prn reg → (outcome i s).run = .faulted) ∨
    ∃ reg, i = .prn reg ∧ reg.toNat = (regOf reg).val ∧ (outcome i s).run = s.run ∧
      (outcome i s).out = s.out ++ [s.readReg (regOf reg)] := by
  obtain ⟨c, -, h⟩ | ⟨hc, h⟩ := outcome_cases i s
  · rw [h]
    exact .inl ⟨rfl, fun _ _ => rfl⟩
  · rw [h]
    obtain ⟨hout, hi⟩ | ⟨reg, rfl, hout⟩ := completion_out_cases i s
    · exact .inl ⟨hout, fun reg hreg => absurd hreg (hi reg)⟩
    · have hreg := regOf_val ((selectsRegister_iff reg).mp (operandsLegal_of_no_fault hc))
      exact .inr ⟨reg, rfl, hreg, rfl, hout⟩

/-- What OUT held has no influence: it comes through in front of what the instruction appends (rule R25). -/
theorem outcome_withOut (i : Instr) (s : State) (other : List Byte) :
    outcome i { s with out := other } =
      { outcome i s with out := other ++ (outcome i s).out.drop s.out.length } := by
  obtain ⟨c, hc, h⟩ | ⟨hc, h⟩ := outcome_cases i s
  · rw [outcome_of_fault hc, outcome_of_fault (s := { s with out := other }) hc]
    simp [State.takeFault]
  · rw [outcome_of_no_fault hc, outcome_of_no_fault (s := { s with out := other }) hc]
    cases i with
    | prn reg =>
      simp only [completion, State.writePc_out, State.emit_out, List.drop_left]
      rfl
    | _ =>
      rw [show (completion _ s).out = s.out from rfl, List.drop_length, List.append_nil]
      rfl

/-- A step only appends to OUT. -/
theorem step_out {s t : State} (hs : step s = .next t) : ∃ more, t.out = s.out ++ more := by
  obtain ⟨-, rfl⟩ | ⟨-, -, rfl⟩ | ⟨i, -, -, he⟩ := step_next_cases hs
  · exact ⟨[], (List.append_nil _).symm⟩
  · exact ⟨[], (List.append_nil _).symm⟩
  · obtain rfl := exec_next_iff.mp he
    obtain ⟨h, -⟩ | ⟨reg, -, -, -, h⟩ := outcome_out_cases i s
    · exact ⟨[], by rw [h, List.append_nil]⟩
    · exact ⟨_, h⟩

/-- Settles O22: per instruction by `outcome_out_cases`, along a run by induction on its steps. -/
theorem outIsExtendedOnlyByPrn : Obligations.OutIsExtendedOnlyByPrn := by
  refine ⟨fun _ _ => rfl, fun i s t ht => ?_, fun s t hr => ?_⟩
  · obtain rfl := exec_next_iff.mp ht
    refine ⟨?_, fun other u hu => (exec_next_iff.mp hu).trans (outcome_withOut i s other)⟩
    obtain ⟨h, -⟩ | ⟨reg, hi, hreg, -, h⟩ := outcome_out_cases i s
    · exact .inl h
    · exact .inr ⟨reg, regOf reg, hi, hreg, h⟩
  · induction hr with
    | start => exact ⟨[], (List.append_nil _).symm⟩
    | tail _ hstep ih =>
      obtain ⟨more, hmore⟩ := ih
      obtain ⟨last, hlast⟩ := step_out hstep.2
      exact ⟨more ++ last, by rw [hlast, hmore, List.append_assoc]⟩

/-- Settles O23: an OUT left as it was strobes nothing, an appended value is what strobes. -/
theorem outputPortStrobesExactlyForPrn : Obligations.OutputPortStrobesExactlyForPrn := by
  intro i s t hrun ht v
  obtain rfl := exec_next_iff.mp ht
  obtain ⟨hout, hfault⟩ | ⟨reg, rfl, hreg, hkeep, hout⟩ := outcome_out_cases i s
  · have hnone : outStrobe s (outcome i s) = none := by rw [outStrobe, hout, List.drop_length, List.head?_nil]
    rw [hnone, iff_false_left (Option.some_ne_none v).symm]
    rintro ⟨reg, r, hi, -, hr, -⟩
    rw [hfault reg hi] at hr
    cases hr
  · have hsome : outStrobe s (outcome (.prn reg) s) = some (s.readReg (regOf reg)) := by
      rw [outStrobe, hout, List.drop_left, List.head?_cons]
    rw [hsome, Option.some.injEq]
    constructor
    · rintro rfl
      exact ⟨reg, regOf reg, rfl, hreg, hkeep.trans hrun, rfl⟩
    · rintro ⟨reg', r, hi, hr, -, rfl⟩
      cases hi
      rw [regOf_eq hr]
      rfl

/-! ### PC -/

theorem jumpTaken_of_opcode {s : State} {op : Byte} {e : Bool} (h : fetchOpcode s = op) (he : s.fl.e = e) :
    s.jumpTaken = (op == opJmp || (op == opJeq && e) || (op == opJne && !e)) := by
  rw [State.jumpTaken, h, he]

/-- Settles O24: each row of the table is an advance or a taken jump, by the opcode byte and E. -/
theorem pcAfterAStepIsTheTables : Obligations.PcAfterAStepIsTheTables := by
  intro s t hrun hs
  obtain ⟨c, -, rfl⟩ | ⟨i, hf, hc, rfl⟩ := running_step_cases hrun hs
  · exact ⟨fun _ => rfl, fun _ => rfl, nofun⟩
  have advance : ∀ op, fetchOpcode s = op → recognised op = true → s.jumpTaken = false →
      (completion i s).pc.toNat = s.pc.toNat + instrLength op := by
    rintro _ rfl hrec hj
    rw [completion_pc_of_advances hc (by rw [advances_of_fetch hf hrec, hj, Bool.not_false]), length_of_fetch hf]
  have jump : ∀ op, fetchOpcode s = op → recognised op = true → s.jumpTaken = true →
      ∃ r : Fin 8, (byteAfterPc s 1).toNat = r.val ∧ (completion i s).pc = s.x[r] := by
    rintro _ rfl hrec hj
    exact completion_pc_of_jumpTaken hf hc hrec hj
  refine ⟨fun h => ?_, fun h => ?_, fun _ => ⟨fun h => advance _ h rfl (jumpTaken_of_opcode h rfl),
    fun h => advance _ h rfl (jumpTaken_of_opcode h rfl), fun h => advance _ h rfl (jumpTaken_of_opcode h rfl),
    fun h => jump _ h rfl (jumpTaken_of_opcode h rfl), fun h he => jump _ h rfl (jumpTaken_of_opcode h he),
    fun h he => advance _ h rfl (jumpTaken_of_opcode h he), fun h he => jump _ h rfl (jumpTaken_of_opcode h he),
    fun h he => advance _ h rfl (jumpTaken_of_opcode h he)⟩⟩
  · cases hrec : recognised (fetchOpcode s) with
    | true => exact absurd ((completion_run_of_not_halt (not_halt_of_recognised hf hrec) s).trans hrun) h
    | false => rw [completion_of_not_recognised hf hrec, State.enterHalted_pc]
  · have hrec : recognised (fetchOpcode s) = false := by
      rw [← Bool.not_eq_true, ← mem_sixOpcodes_iff]
      exact h
    rw [completion_of_not_recognised hf hrec, State.enterHalted_pc]

/-! ### Flags -/

/-- A well-formed instruction with CMP's opcode byte is a CMP (rule R55). -/
theorem eq_cmp_of_opcode {i : Instr} (hwf : i.wf = true) (hop : i.opcode = opCmp) : ∃ a b, i = .cmp a b := by
  cases i with
  | cmp a b => exact ⟨a, b, rfl⟩
  | halt op =>
    obtain rfl : op = opCmp := hop
    cases hwf
  | _ => cases hop

/-- Settles O36: CMP sets one flag, and no other instruction writes FL. -/
theorem flagsStayOneHotFromTheFirstCmp : Obligations.FlagsStayOneHotFromTheFirstCmp := by
  intro s t hs
  obtain ⟨hstop, rfl⟩ | ⟨c, -, rfl⟩ | ⟨i, -, hf, rfl⟩ := step_cases hs
  · exact ⟨fun h => absurd h hstop, id⟩
  · exact ⟨nofun, id⟩
  · refine ⟨fun _ hcmp _ => ?_, completion_fl_oneHot⟩
    obtain ⟨hop, hwf, -⟩ := fetch_ok hf
    obtain ⟨a, b, rfl⟩ := eq_cmp_of_opcode hwf (hop.trans hcmp)
    exact compareFlags_oneHot _ _

/-! ### FC -/

/-- FC is written only by a step that faults (rule R24). -/
theorem step_fc {s t : State} (hs : step s = .next t) : t.fc = s.fc ∨ (s.run = .running ∧ t.run = .faulted) := by
  obtain ⟨-, rfl⟩ | ⟨c, hrun, rfl⟩ | ⟨i, -, -, rfl⟩ := step_cases hs
  · exact .inl rfl
  · exact .inr ⟨hrun, rfl⟩
  · exact .inl (completion_fc i s)

/-- Along every run FC names a cause exactly while RUN = FAULTED (rule R24). -/
theorem CauseNamedWhenFaulted.reaches {s t : State} (h : CauseNamedWhenFaulted s) (hr : Reaches s t) :
    CauseNamedWhenFaulted t := by
  induction hr with
  | start => exact h
  | tail _ hstep ih => exact ih.step hstep.2

/-- No instruction reads RUN or FC (rules R24, R125). -/
theorem outcome_withRunAndCause (i : Instr) (s : State) (run : RunState) (fc : Option FaultCause) :
    (outcome i { s with run := run, fc := fc }).x = (outcome i s).x ∧
    (outcome i { s with run := run, fc := fc }).pc = (outcome i s).pc ∧
    (outcome i { s with run := run, fc := fc }).fl = (outcome i s).fl ∧
    (outcome i { s with run := run, fc := fc }).mem = (outcome i s).mem ∧
    (outcome i { s with run := run, fc := fc }).out = (outcome i s).out := by
  obtain ⟨c, hc, -⟩ | ⟨hc, -⟩ := outcome_cases i s
  · rw [outcome_of_fault hc, outcome_of_fault (s := { s with run := run, fc := fc }) hc]
    exact ⟨rfl, rfl, rfl, rfl, rfl⟩
  · rw [outcome_of_no_fault hc, outcome_of_no_fault (s := { s with run := run, fc := fc }) hc]
    cases i <;> exact ⟨rfl, rfl, rfl, rfl, rfl⟩

/-- Settles O38: FC = NONE along a run is `CauseNamedWhenFaulted`, which holds at launch and is kept by every step. -/
theorem faultCauseFollowsItsRule : Obligations.FaultCauseFollowsItsRule := by
  refine ⟨fun s => ?_, fun p program s hr hrun => ?_, fun s t => step_fc, fun i s t run fc ht => ?_⟩
  · refine ⟨fun h => ?_, fun h => ?_, fun h => ?_, fun h => ?_⟩ <;> rw [State.faultCausePort, h] <;> rfl
  · have hlaunch : CauseNamedWhenFaulted (State.launch p program) := by simp [CauseNamedWhenFaulted, State.launch]
    have hnone : s.fc = none := by
      exact Option.not_isSome_iff_eq_none.mp (mt (hlaunch.reaches hr).mp hrun)
    rw [State.faultCausePort, hnone]
    rfl
  · obtain rfl := exec_next_iff.mp ht
    exact ⟨_, exec_eq i _, outcome_withRunAndCause i s run fc⟩

/-! ### Launch and boot -/

/-- Settles O26: the cells are those of IMAGE. -/
theorem launchStateIsTheSpecs : Obligations.LaunchStateIsTheSpecs := by
  intro p program _
  refine ⟨rfl, rfl, rfl, rfl, rfl, rfl, fun a h => ?_, fun a h => ?_⟩
  · exact (read_image program a).trans (List.getD_eq_getElem _ _ h)
  · exact (read_image program a).trans (List.getD_eq_default _ _ h)

/-- The memory after the first n writes of the host's load (rule R133). -/
def loadedUpTo (program : List Byte) (m : Memory) (n : Nat) : Memory :=
  (List.range n).foldl (loadCell program) m

theorem loadedUpTo_succ (program : List Byte) (m : Memory) (n : Nat) :
    loadedUpTo program m (n + 1) =
      Memory.write (loadedUpTo program m n) (BitVec.ofNat 8 n) (program.getD n Config.fillByte) := by
  rw [loadedUpTo, List.range_succ, List.foldl_append]
  rfl

theorem loadedUpTo_wf (program : List Byte) {m : Memory} (hm : Memory.wf m = true) (n : Nat) :
    Memory.wf (loadedUpTo program m n) = true := by
  induction n with
  | zero => exact hm
  | succ n ih => rw [loadedUpTo_succ]; exact Memory.write_wf _ _ _ ih

/-- Each cell below n holds its byte of IMAGE once n cells are written. -/
theorem read_loadedUpTo (program : List Byte) {m : Memory} (hm : Memory.wf m = true) {n : Nat} (hn : n ≤ 256)
    {a : Byte} (ha : a.toNat < n) :
    Memory.read (loadedUpTo program m n) a = program.getD a.toNat Config.fillByte := by
  induction n with
  | zero => exact absurd ha (Nat.not_lt_zero _)
  | succ n ih =>
    have hcell : (BitVec.ofNat 8 n).toNat = n := by rw [BitVec.toNat_ofNat, Nat.mod_eq_of_lt (by omega)]
    rw [loadedUpTo_succ]
    by_cases h : a = BitVec.ofNat 8 n
    · rw [h, Memory.read_write_same _ _ _ (loadedUpTo_wf program hm n), hcell]
    · have hne : a.toNat ≠ n := fun hn => h (BitVec.eq_of_toNat_eq (hn.trans hcell.symm))
      rw [Memory.read_write_ne _ _ _ _ h, ih (by omega) (by omega)]

/-- The load of all 256 cells gives IMAGE, whatever memory held (rules R132, R133). -/
theorem loadedUpTo_eq_image {program : List Byte} (h : program.length ≤ 256) {m : Memory}
    (hm : Memory.wf m = true) : loadedUpTo program m 256 = image program :=
  Memory.eq_of_read _ _ (loadedUpTo_wf program hm 256) (image_wf program h) fun a => by
    rw [read_loadedUpTo program hm (Nat.le_refl 256) a.isLt, read_image]

/-- Settles O27: the load leaves IMAGE, and reset writes every other field. -/
theorem bootGivesTheLaunchStateFromAnyState : Obligations.BootGivesTheLaunchStateFromAnyState := by
  intro p program s h hm
  refine ⟨rfl, ?_⟩
  rw [State.launch, ← loadedUpTo_eq_image h hm]
  rfl

/-! ### Correct programs -/

/-- Fetching looks at PC and memory alone. -/
theorem fetch_congr {t u : State} (hpc : u.pc = t.pc) (hmem : u.mem = t.mem) : fetch u = fetch t := by
  have hread : ∀ a, u.memRead a = t.memRead a := fun a => by rw [State.memRead, State.memRead, hmem]
  have hop : fetchOpcode u = fetchOpcode t := by rw [fetchOpcode, fetchOpcode, hpc, hread]
  rw [fetch_eq, fetch_eq, hop, hpc, hread, hread]

theorem fetch_of_inRange {s : State} (h : s.nextInstrInRange) : ∃ i, fetch s = .ok i := by
  cases hf : fetch s with
  | ok i => exact ⟨i, rfl⟩
  | error c =>
    obtain ⟨hrec, hlast⟩ := fetch_fault hf
    exact absurd (h.1 hrec).1 (Nat.not_le.mpr hlast)

/-- An instruction that meets rule R125's range conditions raises no fault (rule R112). -/
theorem no_fault_of_inRange {s : State} {i : Instr} (h : s.nextInstrInRange) (hf : fetch s = .ok i) :
    execFault i s.pc s.fl.e = none := by
  obtain ⟨hrange, hlegal⟩ := h
  cases hrec : recognised (fetchOpcode s) with
  | true =>
    obtain ⟨hle, htop⟩ := hrange hrec
    have hlen := length_of_fetch hf
    rw [State.lastByteAddr, ← hlen, Config.lastAddress] at hle htop
    refine (execFault_eq_none_iff _ _ _).mpr ⟨hle, hlegal i hf, fun hadv => ?_⟩
    have hj : s.jumpTaken ≠ true := by
      rw [advances_of_fetch hf hrec, Bool.not_eq_true'] at hadv
      rw [hadv]
      exact Bool.false_ne_true
    have := mt htop hj
    omega
  | false =>
    cases i with
    | halt op => exact execFault_halt op _ _
    | _ => rw [recognised_of_not_halt hf nofun] at hrec; cases hrec

theorem ReachesHaving.reaches {s t : State} {written : List Nat} {compared : Bool}
    (h : ReachesHaving s written compared t) : Reaches s t := by
  induction h with
  | start => exact .start
  | tail _ _ hstep _ ih => exact ih.tail hstep

theorem ReachesHaving.run_ne_faulted {s t : State} {written : List Nat} {compared : Bool}
    (h : ReachesHaving s written compared t) (hs : s.run ≠ .faulted) : t.run ≠ .faulted := by
  cases h with
  | start => exact hs
  | tail _ _ _ hrun => exact hrun

/-- A run that meets rule R125's conditions accompanies every run of the same program from another value of the open
parameters: they agree on everything but the registers not yet written and the flags before the first CMP. -/
theorem exists_accompanying_run {p q : Config.ResetValues} {program : List Byte}
    (hcond : ∀ (written : List Nat) (compared : Bool) (t : State),
      ReachesHaving (State.launch p program) written compared t → t.run = .running →
        t.nextInstrInRange ∧ usesOnlySetValues written compared t)
    {u : State} (hu : Reaches (State.launch q program) u) :
    ∃ (written : List Nat) (compared : Bool) (t : State), ReachesHaving (State.launch p program) written compared t ∧
      AgreeOn (fun r => r.val ∈ written) (compared = true) t u := by
  induction hu with
  | start => exact ⟨[], false, _, .start, ⟨rfl, rfl, rfl, rfl, rfl, nofun, nofun⟩⟩
  | @tail u u' _ hstep ih =>
    obtain ⟨written, compared, t, ht, agree⟩ := ih
    obtain ⟨hrun, hs⟩ := hstep
    have hrunt : t.run = .running := agree.run.symm.trans hrun
    obtain ⟨hrange, huses⟩ := hcond written compared t ht hrunt
    obtain ⟨i, hf⟩ := fetch_of_inRange hrange
    obtain ⟨hreads, hcompared⟩ := huses i hf
    have hfault := no_fault_of_inRange hrange hf
    have he : isConditional i = true → u.fl.e = t.fl.e := fun hi => by rw [agree.fl (hcompared hi)]
    have hu' : u' = completion i u := by
      have hfu := (fetch_congr agree.pc agree.mem).trans hf
      have hsu := step_of_no_fault hrun hfu ((agree.execFault_eq he).trans hfault)
      rw [hs, Host.Outcome.next.injEq] at hsu
      exact hsu
    have hnot : (completion i t).run ≠ .faulted := completion_run_ne_faulted (by simp [hrunt])
    refine ⟨_, _, completion i t, ht.tail hf ⟨hrunt, step_of_no_fault hrunt hf hfault⟩ hnot, ?_⟩
    rw [hu']
    refine (agree.completion (operandsLegal_of_no_fault hfault) (fun r => hreads r.val) he).mono ?_ ?_
    · exact fun r hr => (List.mem_append.mp hr).symm
    · exact Bool.or_eq_true_iff.mp

/-- Settles O37: the run that meets the conditions never faults, and it accompanies every other run. -/
theorem sufficientConditionsMakeAProgramCorrect : Obligations.SufficientConditionsMakeAProgramCorrect := by
  intro p program _ hcond
  refine ⟨fun q u hu => ?_, fun q u hu => ?_⟩
  · obtain ⟨written, compared, t, ht, agree⟩ := exists_accompanying_run hcond hu
    rw [agree.run]
    exact ReachesHaving.run_ne_faulted ht nofun
  · obtain ⟨written, compared, t, ht, agree⟩ := exists_accompanying_run hcond hu
    exact ⟨t, ReachesHaving.reaches ht, agree.pc, agree.run, agree.fc, agree.out, agree.mem⟩

end Sys2Proof.StateProofs

namespace Sys2Proof.MemoryProofs
/-! PROOFS. The statements about memory (spec/20_memory.md): what memory holds along a run, and which cells a step
reads. -/

open Sys2Proof.Machine Sys2Proof.Statements Sys2Proof.Laws Sys2Proof.Facts Sys2Proof.StateProofs

/-! ### What memory holds -/

/-- No instruction writes memory, whether it completes or faults (rule R35). -/
theorem outcome_mem (i : Instr) (s : State) : (outcome i s).mem = s.mem := by
  obtain ⟨c, -, h⟩ | ⟨-, h⟩ := outcome_cases i s
  · rw [h, State.takeFault_mem]
  · rw [h, completion_mem]

/-- No run writes memory (rule R35). -/
theorem reaches_mem {s t : State} (hr : Reaches s t) : t.mem = s.mem := by
  induction hr with
  | start => rfl
  | tail _ hstep ih => exact (step_mem hstep.2).trans ih

/-- Settles O19: a run keeps the memory of its launch state, which is IMAGE. -/
theorem memoryIsTheImageThroughoutARun : Obligations.MemoryIsTheImageThroughoutARun := by
  refine ⟨fun m a v b hm => ?_, fun i s t ht => ?_, fun p program s _ hr a => ?_⟩
  · split
    · rename_i h
      rw [h, Memory.read_write_same m a v hm]
    · rename_i h
      exact Memory.read_write_ne m a b v h
  · rw [exec_next_iff.mp ht, outcome_mem]
  · rw [State.memRead, reaches_mem hr]
    exact read_image program a

/-! ### Which cells a step reads -/

/-- The length by opcode byte that the statements write out is the model's (rule R57). -/
theorem lengthByOpcode_eq (op : Byte) : lengthByOpcode op = instrLength op := by
  unfold lengthByOpcode instrLength
  by_cases h3 : op = opLdi ∨ op = opCmp
  · rw [if_pos h3]
    exact if_pos h3
  · have hrec : recognised op = true ↔ op = opPrn ∨ op = opJmp ∨ op = opJeq ∨ op = opJne := by
      rw [not_or] at h3
      simp [recognised, h3, or_assoc]
    simp only [if_neg h3, hrec]
    exact if_neg h3

theorem byteAfterPc_zero (s : State) : byteAfterPc s 0 = fetchOpcode s := by
  rw [byteAfterPc, Nat.add_zero, BitVec.ofNat_toNat, BitVec.setWidth_eq, fetchOpcode]

/-- The instruction's bytes that are cells are the same in both memories (rule R36). -/
def AgreeOnInstrBytes (s u : State) : Prop :=
  ∀ k, k < instrLength (fetchOpcode s) → s.pc.toNat + k ≤ 255 → byteAfterPc u k = byteAfterPc s k

/-- Fetching reads the opcode and the operand bytes its opcode has, and no other cell (rules R36, R71, R73). -/
theorem fetch_of_agreeOnInstrBytes {s u : State} (hpc : u.pc = s.pc) (h : AgreeOnInstrBytes s u) :
    fetch u = fetch s := by
  have hop : fetchOpcode u = fetchOpcode s := by
    have hlen : 0 < instrLength (fetchOpcode s) := by
      have := instrLength_cases (fetchOpcode s)
      omega
    rw [← byteAfterPc_zero, ← byteAfterPc_zero, h 0 hlen (Nat.le_of_lt_succ s.pc.isLt)]
  have hread : ∀ k, k < instrLength (fetchOpcode s) → s.pc.toNat + k ≤ 255 →
      u.memRead (BitVec.ofNat 8 (s.pc.toNat + k)) = s.memRead (BitVec.ofNat 8 (s.pc.toNat + k)) := by
    intro k hk hcell
    have := h k hk hcell
    rwa [byteAfterPc, byteAfterPc, hpc] at this
  rw [fetch_eq, fetch_eq, hop, hpc]
  split
  · split
    · rfl
    · rw [hread 1 (by omega) (by omega), hread 2 (by omega) (by omega)]
  · split
    · split
      · rfl
      · rw [hread 1 (by omega) (by omega)]
    · rfl

/-- Executing an instruction reads no memory: what memory holds comes through unchanged (rule R36). -/
theorem outcome_withMem (i : Instr) (s : State) (m : Memory) :
    outcome i { s with mem := m } = { outcome i s with mem := m } := by
  obtain ⟨c, hc, h⟩ | ⟨hc, h⟩ := outcome_cases i s
  · rw [h, outcome_of_fault (s := { s with mem := m }) hc]
    rfl
  · rw [h, outcome_of_no_fault (s := { s with mem := m }) hc]
    cases i <;> rfl

/-- A RUNNING unit whose other cells are changed takes the same step, the memories apart. -/
theorem step_withMem {s t : State} {m : Memory} (hrun : s.run = .running)
    (h : AgreeOnInstrBytes s { s with mem := m }) (hs : step s = .next t) :
    step { s with mem := m } = .next { t with mem := m } := by
  have hfetch : fetch { s with mem := m } = fetch s := fetch_of_agreeOnInstrBytes rfl h
  obtain ⟨hstop, -⟩ | ⟨-, hf, rfl⟩ | ⟨i, -, hf, he⟩ := step_next_cases hs
  · exact absurd hrun hstop
  · exact step_of_fetch_error hrun (hfetch.trans hf)
  · rw [step_of_fetch_ok (s := { s with mem := m }) hrun (hfetch.trans hf), exec_eq, outcome_withMem,
      exec_next_iff.mp he]

/-- The addresses put out for an instruction whose bytes are all cells: PC and those after it, in order (rule R36). -/
theorem fetchAddresses_toNat {s : State} (h : s.pc.toNat + instrLength (fetchOpcode s) ≤ 256) :
    s.fetchAddresses.map BitVec.toNat = (List.range (instrLength (fetchOpcode s))).map (s.pc.toNat + ·) := by
  obtain ⟨n, hn⟩ : ∃ n, instrLength (fetchOpcode s) = n + 1 := by
    obtain hl | hl | hl := instrLength_cases (fetchOpcode s) <;> exact ⟨_, hl⟩
  have hoperands : ((List.range n).filterMap fun k => (operandAddr (k + 1) s).toOption) =
      (List.range n).map fun k => BitVec.ofNat 8 (s.pc.toNat + (k + 1)) := by
    refine List.filterMap_eq_map_iff_forall_eq_some.mpr fun k hk => ?_
    have := List.mem_range.mp hk
    rw [operandAddr_of_le (by omega)]
    rfl
  rw [State.fetchAddresses, hn, Nat.add_sub_cancel, hoperands, List.range_succ_eq_map, List.map_cons, List.map_cons,
    List.map_map, List.map_map, Nat.add_zero]
  refine congrArg _ (List.map_congr_left fun k hk => ?_)
  have := List.mem_range.mp hk
  exact (BitVec.toNat_ofNat ..).trans (Nat.mod_eq_of_lt (by omega))

/-- Settles O25: memory enters a step through fetching alone, and fetching reads the instruction's bytes. -/
theorem stepReadsOnlyItsInstructionBytes : Obligations.StepReadsOnlyItsInstructionBytes := by
  intro s hrun
  rw [lengthByOpcode_eq]
  exact ⟨fetchAddresses_toNat, fun m t hs hagree => step_withMem hrun hagree hs⟩

end Sys2Proof.MemoryProofs

namespace Sys2Proof.EncodingProofs
/-! PROOFS. The statements about the encoding (spec/30_encoding.md): the decoder, the encoder, and the table words that
the model places. `decode_cases` says once what the decoder does after each opcode byte. -/

open Sys2Proof.Machine Sys2Proof.Statements Sys2Proof.Laws Sys2Proof.Facts Sys2Proof.MemoryProofs

/-! ### The decoder by opcode byte -/

/-- A byte that is not one of the six is a halt and takes no operand byte (rules R56, R60). -/
theorem decode_of_not_recognised {op : Byte} (h : recognised op = false) (rest : List Byte) :
    decode (op :: rest) = .ok (.halt op, rest) := by
  simp only [recognised, Bool.or_eq_false_iff, beq_eq_false_iff_ne] at h
  simp [decode, h]

/-- `make` builds the well-formed instructions of this opcode byte from one operand byte (format OP_R). -/
def MakesOneOperand (op : Byte) (make : Byte → Instr) : Prop :=
  ∀ op1, (make op1).wf = true ∧ encode (make op1) = [op, op1]

/-- `make` builds the well-formed instructions of this opcode byte from two operand bytes (formats OP_R_I, OP_R_R). -/
def MakesTwoOperands (op : Byte) (make : Byte → Byte → Instr) : Prop :=
  ∀ op1 op2, (make op1 op2).wf = true ∧ encode (make op1 op2) = [op, op1, op2]

/-- What the decoder does after an opcode byte: it reads two operand bytes, or one, or none (rules R51, R55, R56). -/
theorem decode_cases (op : Byte) :
    (instrLength op = 3 ∧ ∃ make, MakesTwoOperands op make ∧
      ∀ rest, decode (op :: rest) = decodeTwoOperands make rest) ∨
    (instrLength op = 2 ∧ ∃ make, MakesOneOperand op make ∧
      ∀ rest, decode (op :: rest) = decodeOneOperand make rest) ∨
    (instrLength op = 1 ∧ recognised op = false ∧ ∀ rest, decode (op :: rest) = .ok (.halt op, rest)) := by
  obtain h1 | h2 | h3 := instrLength_cases op
  · have hrec : recognised op = false :=
      Bool.eq_false_iff.mpr (mt (instrLength_ne_one_iff op).mpr (not_not.mpr h1))
    exact .inr (.inr ⟨h1, hrec, decode_of_not_recognised hrec⟩)
  · refine .inr (.inl ⟨h2, ?_⟩)
    obtain rfl | rfl | rfl | rfl := (instrLength_eq_two_iff op).mp h2
    · exact ⟨.prn, fun _ => ⟨rfl, rfl⟩, fun _ => rfl⟩
    · exact ⟨.jmp, fun _ => ⟨rfl, rfl⟩, fun _ => rfl⟩
    · exact ⟨.jeq, fun _ => ⟨rfl, rfl⟩, fun _ => rfl⟩
    · exact ⟨.jne, fun _ => ⟨rfl, rfl⟩, fun _ => rfl⟩
  · refine .inl ⟨h3, ?_⟩
    obtain rfl | rfl := (instrLength_eq_three_iff op).mp h3
    · exact ⟨.ldi, fun _ _ => ⟨rfl, rfl⟩, fun _ => rfl⟩
    · exact ⟨.cmp, fun _ _ => ⟨rfl, rfl⟩, fun _ => rfl⟩

/-! ### The round trip -/

/-- Decoding an encoding gives the instruction back, and leaves the bytes after it (rules R50, R51). -/
theorem decode_encode {i : Instr} (h : i.wf = true) (rest : List Byte) :
    decode (encode i ++ rest) = .ok (i, rest) := by
  cases i with
  | halt op => exact decode_of_not_recognised ((Bool.not_eq_true' _).mp h) rest
  | _ => rfl

theorem decodeOneOperand_ok {make : Byte → Instr} {bytes rest : List Byte} {i : Instr}
    (h : decodeOneOperand make bytes = .ok (i, rest)) : ∃ op1, bytes = op1 :: rest ∧ i = make op1 := by
  match bytes, h with
  | op1 :: _, rfl => exact ⟨op1, rfl, rfl⟩

theorem decodeTwoOperands_ok {make : Byte → Byte → Instr} {bytes rest : List Byte} {i : Instr}
    (h : decodeTwoOperands make bytes = .ok (i, rest)) :
    ∃ op1 op2, bytes = op1 :: op2 :: rest ∧ i = make op1 op2 := by
  match bytes, h with
  | op1 :: op2 :: _, rfl => exact ⟨op1, op2, rfl, rfl⟩

/-- What decodes is well formed and was its own encoding, the bytes after it apart (rules R50, R51). -/
theorem wf_and_eq_encode_of_decode {bytes rest : List Byte} {i : Instr} (h : decode bytes = .ok (i, rest)) :
    i.wf = true ∧ bytes = encode i ++ rest := by
  cases bytes with
  | nil => cases h
  | cons op bytes =>
    obtain ⟨-, make, hmake, hdecode⟩ | ⟨-, make, hmake, hdecode⟩ | ⟨-, hrec, hdecode⟩ := decode_cases op
    · obtain ⟨op1, op2, rfl, rfl⟩ := decodeTwoOperands_ok ((hdecode bytes).symm.trans h)
      obtain ⟨hwf, hencode⟩ := hmake op1 op2
      exact ⟨hwf, by rw [hencode]; rfl⟩
    · obtain ⟨op1, rfl, rfl⟩ := decodeOneOperand_ok ((hdecode bytes).symm.trans h)
      obtain ⟨hwf, hencode⟩ := hmake op1
      exact ⟨hwf, by rw [hencode]; rfl⟩
    · cases (hdecode bytes).symm.trans h
      exact ⟨by rw [Instr.wf, hrec, Bool.not_false], rfl⟩

/-- Settles O1: one direction by the instruction, the other by the opcode byte. -/
theorem decodeAndEncodeAgree : Obligations.DecodeAndEncodeAgree :=
  ⟨fun _ rest h => decode_encode h rest, fun _ _ _ => wf_and_eq_encode_of_decode⟩

/-! ### The opcode map and the lengths -/

/-- Settles O2: each of the six opcode bytes is an encoding's first, and every other byte is a halt. -/
theorem opcodeMapIsTheSpecs : Obligations.OpcodeMapIsTheSpecs := by
  intro op1 op2 rest
  refine ⟨decode_encode (i := .ldi op1 op2) rfl rest, decode_encode (i := .prn op1) rfl rest,
    decode_encode (i := .cmp op1 op2) rfl rest, decode_encode (i := .jmp op1) rfl rest,
    decode_encode (i := .jeq op1) rfl rest, decode_encode (i := .jne op1) rfl rest, fun ir hir => ?_⟩
  exact decode_of_not_recognised (Bool.eq_false_iff.mpr (mt (mem_sixOpcodes_iff ir).mpr hir)) rest

/-- A decoder of what follows the opcode byte takes n bytes, whatever they are, and rejects only a shorter string. -/
def Consumes (n : Nat) (decodeRest : List Byte → Decoded) : Prop :=
  ∀ bytes, (n ≤ bytes.length → ∃ i, decodeRest bytes = .ok (i, bytes.drop n)) ∧
    (bytes.length < n → ∃ e, decodeRest bytes = .error e)

theorem decodeOneOperand_consumes (make : Byte → Instr) : Consumes 1 (decodeOneOperand make)
  | [] => ⟨by simp, fun _ => ⟨_, rfl⟩⟩
  | op1 :: rest => ⟨fun _ => ⟨make op1, rfl⟩, by simp⟩

theorem decodeTwoOperands_consumes (make : Byte → Byte → Instr) : Consumes 2 (decodeTwoOperands make)
  | [] => ⟨by simp, fun _ => ⟨_, rfl⟩⟩
  | [_] => ⟨by simp, fun _ => ⟨_, rfl⟩⟩
  | op1 :: op2 :: rest => ⟨fun _ => ⟨make op1 op2, rfl⟩, by simp⟩

/-- The decoder takes as many bytes after the opcode byte as the opcode's length says (rule R57). -/
theorem decode_consumes (op : Byte) : Consumes (instrLength op - 1) fun rest => decode (op :: rest) := by
  obtain ⟨hlen, make, -, hdecode⟩ | ⟨hlen, make, -, hdecode⟩ | ⟨hlen, -, hdecode⟩ := decode_cases op
  · simpa only [hlen, hdecode] using decodeTwoOperands_consumes make
  · simpa only [hlen, hdecode] using decodeOneOperand_consumes make
  · rw [hlen]
    exact fun bytes => ⟨fun _ => ⟨.halt op, hdecode bytes⟩, nofun⟩

/-- Settles O3: `decode_consumes`, with the opcode byte counted. -/
theorem lengthIsTheOpcodeBytes : Obligations.LengthIsTheOpcodeBytes := by
  intro op rest
  obtain ⟨hlong, hshort⟩ := decode_consumes op rest
  rw [lengthByOpcode_eq]
  exact ⟨fun h => hlong (by omega), fun h => hshort (by omega)⟩

/-! ### Table words -/

/-- Settles O4: seven closed evaluations of the decoder. -/
theorem vectorWordsDecode : Obligations.VectorWordsDecode :=
  ⟨rfl, rfl, rfl, rfl, rfl, rfl, rfl⟩

theorem tableWord_lt (bytes : List Byte) : tableWord bytes < 2 ^ (8 * bytes.length) := by
  induction bytes with
  | nil => exact Nat.one_pos
  | cons b rest ih =>
    have := b.isLt
    rw [tableWord, List.length_cons, Nat.mul_succ, Nat.pow_add]
    omega

/-- The first byte of a word is its low byte. -/
theorem ofNat_tableWord_cons (b : Byte) (rest : List Byte) : BitVec.ofNat 8 (tableWord (b :: rest)) = b := by
  have := b.isLt
  refine BitVec.eq_of_toNat_eq ?_
  rw [BitVec.toNat_ofNat, tableWord]
  omega

/-- The bytes after the first are the word shifted down by one byte. -/
theorem tableWord_cons_div (b : Byte) (rest : List Byte) : tableWord (b :: rest) / 2 ^ 8 = tableWord rest := by
  have := b.isLt
  rw [tableWord]
  omega

/-- The bytes of a table word are those it was made of, then fill bytes up to three (rule R51). -/
theorem tableBytes_tableWord {bytes : List Byte} (h : bytes.length ≤ 3) :
    tableBytes (8 * bytes.length) (tableWord bytes) = bytes ++ List.replicate (3 - bytes.length) 0 := by
  rw [tableBytes, Nat.mod_eq_of_lt (tableWord_lt bytes), Nat.pow_add 2 8 8, ← Nat.div_div_eq_div_mul]
  match bytes, h with
  | [], _ => rfl
  | [b0], _ => rw [ofNat_tableWord_cons, tableWord_cons_div]; rfl
  | [b0, b1], _ => simp only [ofNat_tableWord_cons, tableWord_cons_div]; rfl
  | [b0, b1, b2], _ => simp only [ofNat_tableWord_cons, tableWord_cons_div]; rfl

/-- A well-formed instruction is as long as its opcode byte says (rule R57). -/
theorem length_eq_instrLength {i : Instr} (h : i.wf = true) : i.length = instrLength i.opcode := by
  cases i with
  | halt op => exact (EncodingShape.halt op).2 h
  | _ => rfl

theorem length_le_three (i : Instr) : i.length ≤ 3 := by
  cases i <;> simp

/-- The decoder reads a well-formed instruction back from its table word. -/
theorem decodeTableWord_tableWord {i : Instr} (h : i.wf = true) :
    decodeTableWord (8 * i.length) (tableWord (encode i)) = some i := by
  have hlen : (encode i).length ≤ 3 := length_le_three i
  rw [decodeTableWord, Instr.length, tableBytes_tableWord hlen, decode_encode h]

/-! ### The placed word is fetched -/

/-- The operand bytes fetched are those after PC, in ascending address order (rules R36, R73). -/
theorem fetchOperands_eq {s : State} {n : Nat} (h : s.pc.toNat + n ≤ 255) :
    fetchOperands s n = .ok ((List.range n).map fun k => byteAfterPc s (k + 1)) := by
  induction n with
  | zero => rfl
  | succ n ih =>
    rw [fetchOperands, ih (by omega), operand_of_le h, List.range_succ, List.map_append]
    rfl

/-- The bytes of the instruction lie in the cells from PC up. -/
def LiesAtPc (i : Instr) (s : State) : Prop :=
  ∀ (k : Nat) (h : k < (encode i).length), s.pc.toNat + k ≤ 255 ∧ byteAfterPc s k = (encode i)[k]

/-- Fetching where a well-formed instruction lies gives that instruction (rules R70 to R73). -/
theorem fetch_of_liesAtPc {s : State} {i : Instr} (hwf : i.wf = true) (h : LiesAtPc i s) : fetch s = .ok i := by
  have hop : fetchOpcode s = i.opcode := by
    rw [← byteAfterPc_zero]
    exact (h 0 (Nat.succ_pos _)).2
  have hlen : instrLength (fetchOpcode s) - 1 = i.operandBytes.length := by
    rw [hop, ← length_eq_instrLength hwf]
    rfl
  have hlast : s.pc.toNat + i.operandBytes.length ≤ 255 := (h i.operandBytes.length (Nat.lt_succ_self _)).1
  have hoperands : ((List.range i.operandBytes.length).map fun k => byteAfterPc s (k + 1)) = i.operandBytes := by
    refine List.ext_getElem (by simp) fun k _ hk => ?_
    rw [List.getElem_map, List.getElem_range]
    exact (h (k + 1) (Nat.succ_lt_succ hk)).2
  have hdecode : decode (i.opcode :: i.operandBytes) = .ok (i, []) := by
    rw [← decode_encode hwf [], List.append_nil, encode]
  rw [fetch, hlen, fetchOperands_eq hlast, hoperands, hop]
  simp only [ok_bind, hdecode]

/-- The cells a run of bytes is written to read as those bytes. -/
theorem read_writeBytes {m : Memory} (hm : Memory.wf m = true) {bytes : List Byte} {a k : Nat} (hk : k < bytes.length)
    (hcell : a + k ≤ 255) : Memory.read (m.writeBytes a bytes) (BitVec.ofNat 8 (a + k)) = bytes[k] := by
  induction bytes generalizing m a k with
  | nil => cases hk
  | cons b rest ih =>
    have ha : a ≤ Config.lastAddress := Nat.le_trans (Nat.le_add_right a k) hcell
    rw [Memory.writeBytes, if_pos ha]
    cases k with
    | zero =>
      have hbelow : (BitVec.ofNat 8 a).toNat < a + 1 := by rw [BitVec.toNat_ofNat]; omega
      exact (Memory.read_writeBytes_below _ _ _ _ hbelow).trans (Memory.read_write_same _ _ _ hm)
    | succ k =>
      have hshift : a + (k + 1) = a + 1 + k := by omega
      rw [hshift] at hcell ⊢
      exact ih (Memory.write_wf _ _ _ hm) (Nat.lt_of_succ_lt_succ hk) hcell

/-- A placed table word puts its instruction at PC (log entry 11). -/
theorem liesAtPc_withFetchWord {s : State} {i : Instr} (hm : Memory.wf s.mem = true)
    (hroom : s.pc.toNat + i.length ≤ 256) :
    LiesAtPc i (s.withFetchWord (8 * i.length) (tableWord (encode i))) := by
  intro k hk
  have hcell : s.pc.toNat + k ≤ 255 := by
    rw [Instr.length] at hroom
    omega
  have hbytes : tableBytes (8 * i.length) (tableWord (encode i)) =
      encode i ++ List.replicate (3 - i.length) 0 := tableBytes_tableWord (length_le_three i)
  refine ⟨hcell, ?_⟩
  change Memory.read (placeWord s.mem s.pc _ _) (BitVec.ofNat 8 (s.pc.toNat + k)) = _
  rw [placeWord, hbytes, read_writeBytes hm (by rw [List.length_append]; omega) hcell, List.getElem_append_left hk]

/-- Settles O35: the word placed at PC is what the step fetches. -/
theorem placedWordIsDecodedAndRun : Obligations.PlacedWordIsDecodedAndRun := by
  intro s i hm hwf hroom
  exact ⟨decodeTableWord_tableWord hwf,
    step_of_fetch_ok rfl (fetch_of_liesAtPc hwf (liesAtPc_withFetchWord hm hroom))⟩

end Sys2Proof.EncodingProofs

namespace Sys2Proof.LoaderProofs
/-! PROOFS. The statements about program texts (spec/30_encoding.md rules R63 to R65): a text is cut at its line ends,
a line is stripped to its token, and a token's value is worked out digit by digit. -/

open Sys2Proof.Machine Sys2Proof.Statements

/-! ### Lines -/

/-- A character that ends no line is the first of the line it stands in. -/
theorem splitLines_cons {c : Char} (h : c ≠ '\n') (text : List Char) :
    ∃ line lines, splitLines text = line :: lines ∧ splitLines (c :: text) = (c :: line) :: lines := by
  have hne : splitLines text ≠ [] := by
    cases text with
    | nil => nofun
    | cons d rest =>
      rw [splitLines]
      split
      · nofun
      · split <;> nofun
  obtain ⟨line, lines, hl⟩ := List.exists_cons_of_ne_nil hne
  exact ⟨line, lines, hl, by rw [splitLines, if_neg h, hl]⟩

/-- A line end cuts a text in two, wherever it stands (rule R63). -/
theorem splitLines_append (text after : List Char) :
    splitLines (text ++ '\n' :: after) = splitLines text ++ splitLines after := by
  induction text with
  | nil => rfl
  | cons c rest ih =>
    by_cases hc : c = '\n'
    · rw [List.cons_append, splitLines, if_pos hc, ih, splitLines, if_pos hc, List.cons_append]
    · obtain ⟨line, lines, hrest, hcons⟩ := splitLines_cons hc rest
      rw [List.cons_append, splitLines, if_neg hc, ih, hrest, hcons]
      rfl

theorem splitLines_line {line : List Char} (h : '\n' ∉ line) : splitLines line = [line] := by
  induction line with
  | nil => rfl
  | cons c rest ih =>
    obtain ⟨hc, hrest⟩ := not_or.mp (mt List.mem_cons.mpr h)
    rw [splitLines, if_neg (Ne.symm hc), ih hrest]

theorem textBytes_append (text after : List Char) :
    textBytes (text ++ '\n' :: after) = textBytes text ++ textBytes after := by
  rw [textBytes, splitLines_append, List.filterMap_append]
  rfl

theorem textBytes_line {line : List Char} (h : '\n' ∉ line) : textBytes line = (lineByte line).toList := by
  rw [textBytes, splitLines_line h]
  cases hb : lineByte line <;> simp [hb]

/-- Where one text ends its last line, another placed after it stands for its own bytes. -/
theorem textBytes_append_of_endsLines {before : List Char} (h : endsLines before) (text : List Char) :
    textBytes (before ++ text) = textBytes before ++ textBytes text := by
  obtain rfl | hlast := h
  · rfl
  · obtain ⟨lines, rfl⟩ := List.getLast?_eq_some_iff.mp hlast
    have hnil : textBytes [] = [] := rfl
    rw [List.append_assoc, List.singleton_append, textBytes_append, textBytes_append, hnil, List.append_nil]

/-- Settles O30: the line stands for no byte, and the text before it and the text after it for their own. -/
theorem unparsableLinesLeaveNoGap : Obligations.UnparsableLinesLeaveNoGap := by
  intro before line after hends hline hnone
  have hempty : textBytes line = [] := by rw [textBytes_line hline, hnone, Option.toList_none]
  constructor
  · rw [List.append_assoc, textBytes_append_of_endsLines hends, textBytes_append, hempty, List.nil_append,
      textBytes_append_of_endsLines hends]
  · rw [textBytes_append_of_endsLines hends, hempty, List.append_nil]

/-! ### The token of a line -/

theorem not_hash_of_isSpace {c : Char} (h : isSpace c = true) : (c != '#') = true := by
  refine bne_iff_ne.mpr ?_
  rintro rfl
  cases h

/-- A comment after text without `#` is what is stripped (rule R63). -/
theorem stripComment_append {text comment : List Char} (htext : ∀ c ∈ text, (c != '#') = true)
    (hcomment : comment = [] ∨ comment.head? = some '#') : stripComment (text ++ comment) = text := by
  rw [stripComment, List.takeWhile_append_of_pos htext]
  obtain rfl | hhead := hcomment
  · exact List.append_nil _
  · obtain ⟨rest, rfl⟩ := List.head?_eq_some_iff.mp hhead
    exact List.append_nil _

/-- Whitespace before a text is dropped, and no more where the text begins with none. -/
theorem dropWhile_isSpace_append {space text : List Char} (hspace : space.all isSpace = true)
    (htext : ∀ c, text.head? = some c → isSpace c = false) : (space ++ text).dropWhile isSpace = text := by
  rw [List.dropWhile_append_of_pos (List.all_eq_true.mp hspace)]
  cases text with
  | nil => rfl
  | cons c rest => exact List.dropWhile_cons_of_neg (Bool.eq_false_iff.mp (htext c rfl))

/-- Trimming leaves the token between the whitespace (rule R63). -/
theorem trim_append {left token right : List Char} (hleft : left.all isSpace = true) (hright : right.all isSpace = true)
    (hhead : ∀ c, token.head? = some c → isSpace c = false)
    (hlast : ∀ c, token.getLast? = some c → isSpace c = false) : trim (left ++ token ++ right) = token := by
  have hback : ((token ++ right).reverse.dropWhile isSpace).reverse = token := by
    rw [List.reverse_append, dropWhile_isSpace_append (by rwa [List.all_reverse]) (by rwa [List.head?_reverse]),
      List.reverse_reverse]
  rw [trim, List.append_assoc]
  cases token with
  | nil =>
    have hspace : (left ++ right).all isSpace = true := by rw [List.all_append, hleft, hright, Bool.and_self]
    have hdrop := dropWhile_isSpace_append (text := []) hspace nofun
    rw [List.append_nil] at hdrop
    rw [List.nil_append, hdrop]
    rfl
  | cons c rest => rwa [dropWhile_isSpace_append (text := c :: rest ++ right) hleft hhead]

/-! ### The value of a token -/

/-- The number with one more binary digit at its end. -/
def appendDigit (n : Nat) (c : Char) : Nat :=
  2 * n + (if c = '1' then 1 else 0)

theorem binaryValue_eq (digits : List Char) : binaryValue digits = digits.foldl appendDigit 0 := rfl

/-- The digits read so far weigh as many places more as digits follow. -/
theorem foldl_appendDigit (n : Nat) (digits : List Char) :
    digits.foldl appendDigit n = n * 2 ^ digits.length + binaryValue digits := by
  induction digits generalizing n with
  | nil => simp [binaryValue_eq]
  | cons c digits ih =>
    rw [binaryValue_eq, List.foldl_cons, List.foldl_cons, ih, ih (appendDigit 0 c), List.length_cons, Nat.pow_succ]
    simp only [appendDigit]
    ring

/-- The first digit counts at its weight. -/
theorem binaryValue_cons (c : Char) (digits : List Char) :
    binaryValue (c :: digits) = (if c = '1' then 2 ^ digits.length else 0) + binaryValue digits := by
  rw [binaryValue_eq, List.foldl_cons, foldl_appendDigit, appendDigit]
  split <;> simp

theorem tokenValue_cons (c : Char) (token : List Char) :
    tokenValue (c :: token) = (if c = '1' then 2 ^ token.length else 0) + tokenValue token := by
  have hweight : ∀ k, token.length - 1 - k = token.length - (k + 1) := by omega
  simp only [tokenValue, List.length_cons, List.range_succ_eq_map, List.map_cons, List.sum_cons, List.map_map,
    Function.comp_def, Nat.succ_eq_add_one, List.getElem?_cons_succ, List.getElem?_cons_zero, hweight,
    Option.some.injEq, Nat.add_sub_cancel, Nat.sub_zero]

/-- The loader's number is the one the statement writes out, digit by digit (rules R4, R65). -/
theorem binaryValue_eq_tokenValue (token : List Char) : binaryValue token = tokenValue token := by
  induction token with
  | nil => rfl
  | cons c token ih => rw [binaryValue_cons, tokenValue_cons, ih]

theorem binaryValue_lt (token : List Char) : binaryValue token < 2 ^ token.length := by
  induction token with
  | nil => exact Nat.one_pos
  | cons c token ih =>
    rw [binaryValue_cons, List.length_cons, Nat.pow_succ]
    split <;> omega

theorem isBinaryToken_iff (token : List Char) :
    isBinaryToken token = true ↔ 1 ≤ token.length ∧ token.length ≤ 8 ∧ ∀ c ∈ token, c = '0' ∨ c = '1' := by
  simp [isBinaryToken, and_assoc]

/-- The byte of a line whose token is known (rule R65). -/
theorem lineByte_eq_some_iff {line token : List Char} (h : trim (stripComment line) = token) (v : Byte) :
    lineByte line = some v ↔ 1 ≤ token.length ∧ token.length ≤ 8 ∧ (∀ c ∈ token, c = '0' ∨ c = '1') ∧
      v.toNat = tokenValue token := by
  rw [lineByte, h, ← binaryValue_eq_tokenValue]
  by_cases htoken : isBinaryToken token = true
  · obtain ⟨hpos, hlen, hdigits⟩ := (isBinaryToken_iff token).mp htoken
    have hlt : binaryValue token < 2 ^ 8 :=
      Nat.lt_of_lt_of_le (binaryValue_lt token) (Nat.pow_le_pow_right (by decide) hlen)
    have hvalue : BitVec.ofNat 8 (binaryValue token) = v ↔ v.toNat = binaryValue token := by
      rw [← BitVec.toNat_inj, BitVec.toNat_ofNat, Nat.mod_eq_of_lt hlt, eq_comm]
    simp only [htoken, if_true, Option.some.injEq, hvalue]
    exact ⟨fun hv => ⟨hpos, hlen, hdigits, hv⟩, fun ⟨_, _, _, hv⟩ => hv⟩
  · simp only [htoken, Bool.false_eq_true, if_false, reduceCtorEq, false_iff]
    exact fun ⟨hpos, hlen, hdigits, _⟩ => htoken ((isBinaryToken_iff token).mpr ⟨hpos, hlen, hdigits⟩)

/-- Settles O31: what is stripped and trimmed off such a line leaves the token. -/
theorem tokenGrammarIsOneToEightBinaryDigits : Obligations.TokenGrammarIsOneToEightBinaryDigits := by
  intro left token right comment v hleft hright hhash hhead hlast hcomment
  refine lineByte_eq_some_iff ?_ v
  rw [stripComment_append (fun c hc => ?_) hcomment, trim_append hleft hright hhead hlast]
  rw [List.mem_append, List.mem_append] at hc
  obtain (hc | hc) | hc := hc
  · exact not_hash_of_isSpace (List.all_eq_true.mp hleft c hc)
  · exact bne_iff_ne.mpr (ne_of_mem_of_not_mem hc hhash)
  · exact not_hash_of_isSpace (List.all_eq_true.mp hright c hc)

/-! ### Bytes as lines -/

/-- The lowest n bits of a number as digits, most significant first. -/
def lowDigits (x n : Nat) : List Char :=
  (List.range n).map fun k => if x.testBit (n - 1 - k) then '1' else '0'

theorem byteLine_eq (b : Byte) : byteLine b = lowDigits b.toNat 8 ++ ['\n'] := rfl

theorem lowDigits_succ (x n : Nat) :
    lowDigits x (n + 1) = (if x.testBit n then '1' else '0') :: lowDigits x n := by
  have hplace : ∀ k, n - 1 - k = n - (k + 1) := by omega
  simp only [lowDigits, List.range_succ_eq_map, List.map_cons, List.map_map, Function.comp_def, Nat.succ_eq_add_one,
    hplace, Nat.add_sub_cancel, Nat.sub_zero]

theorem mem_lowDigits {x n : Nat} {c : Char} (h : c ∈ lowDigits x n) : c = '0' ∨ c = '1' := by
  obtain ⟨k, -, rfl⟩ := List.mem_map.mp h
  split
  · exact .inr rfl
  · exact .inl rfl

theorem length_lowDigits (x n : Nat) : (lowDigits x n).length = n := by simp [lowDigits]

/-- The lowest n bits write the number modulo 2^n. -/
theorem binaryValue_lowDigits (x n : Nat) : binaryValue (lowDigits x n) = x % 2 ^ n := by
  induction n with
  | zero => exact (Nat.mod_one x).symm
  | succ n ih =>
    rw [lowDigits_succ, binaryValue_cons, ih, length_lowDigits, Nat.mod_pow_succ, Nat.testBit_eq_decide_div_mod_eq]
    obtain h | h := Nat.mod_two_eq_zero_or_one (x / 2 ^ n) <;> simp [h, Nat.add_comm]

theorem lineByte_lowDigits (b : Byte) : lineByte (lowDigits b.toNat 8) = some b := by
  have hbit {c : Char} (h : c ∈ lowDigits b.toNat 8) : c ≠ '#' ∧ isSpace c = false := by
    obtain rfl | rfl := mem_lowDigits h <;> decide
  have hgrammar := tokenGrammarIsOneToEightBinaryDigits [] (lowDigits b.toNat 8) [] [] b rfl rfl
    (fun h => (hbit h).1 rfl) (fun _ h => (hbit (List.mem_of_head? h)).2) (fun _ h => (hbit (List.mem_of_getLast? h)).2)
    (.inl rfl)
  rw [List.append_nil, List.append_nil, List.nil_append, length_lowDigits, ← binaryValue_eq_tokenValue,
    binaryValue_lowDigits, Nat.mod_eq_of_lt b.isLt] at hgrammar
  exact hgrammar.mpr ⟨by decide, Nat.le_refl 8, fun _ => mem_lowDigits, rfl⟩

/-- A byte's line, with any text after it, yields the byte and what that text yields (rules R63, R64). -/
theorem textBytes_byteLine_append (b : Byte) (text : List Char) :
    textBytes (byteLine b ++ text) = b :: textBytes text := by
  have hline : '\n' ∉ lowDigits b.toNat 8 := fun h => by
    obtain h | h := mem_lowDigits h <;> cases h
  rw [byteLine_eq, List.append_assoc, List.singleton_append, textBytes_append, textBytes_line hline,
    lineByte_lowDigits]
  rfl

/-- Settles O29: by induction on the bytes, a line at a time. -/
theorem binaryLinesLoadInFileOrder : Obligations.BinaryLinesLoadInFileOrder := by
  intro bytes text
  induction bytes with
  | nil => rfl
  | cons b bytes ih =>
    rw [List.map_cons, List.flatten_cons, List.append_assoc, textBytes_byteLine_append, ih, List.cons_append]

end Sys2Proof.LoaderProofs

namespace Sys2Proof.FetchProofs
/-! PROOFS. The statement about fetch, decode and execute (spec/40_fetch_decode_execute.md), over
`fetch_of_liesAtPc`: bytes that lie at PC are fetched and decoded to their instruction. -/

open Sys2Proof.Machine Sys2Proof.Laws Sys2Proof.EncodingProofs

/-- Settles O5: the instruction that lies at PC is the one fetched, and a RUNNING step executes what it fetches. -/
theorem stepRunsTheInstructionInMemory : Obligations.StepRunsTheInstructionInMemory := by
  intro s i hrun hwf hbytes
  have hlies : LiesAtPc i s := hbytes
  have hfetch : fetch s = .ok i := fetch_of_liesAtPc hwf hlies
  exact step_of_fetch_ok hrun hfetch

end Sys2Proof.FetchProofs

namespace Sys2Proof.ExecProofs
/-! PROOFS. The statements about single instructions (spec/41_ldi.md), over `exec_eq`: what `exec` answers at each
fault and at completion, once for every instruction. -/

open Sys2Proof.Machine Sys2Proof.Statements Sys2Proof.Laws Sys2Proof.Facts

theorem exec_of_memRange {i : Instr} {s : State} (h : 255 < s.pc.toNat + (i.length - 1)) :
    exec i s = .next (faultedWith s .memRange) :=
  (exec_eq i s).trans (memRange_answer h).symm

theorem exec_of_regIndex {i : Instr} {s : State} (h : s.pc.toNat + (i.length - 1) ≤ 255)
    (hl : i.operandsLegal = false) : exec i s = .next (faultedWith s .regIndex) :=
  (exec_eq i s).trans (regIndex_answer h hl).symm

theorem exec_of_pcRange {i : Instr} {s : State} (h : s.pc.toNat + (i.length - 1) ≤ 255)
    (hl : i.operandsLegal = true) (hadv : advances i s.fl.e = true) (hpc : 255 < s.pc.toNat + i.length) :
    exec i s = .next (faultedWith s .pcRange) :=
  (exec_eq i s).trans (pcRange_answer h hl hadv hpc).symm

theorem exec_of_no_fault {i : Instr} {s : State} (hc : execFault i s.pc s.fl.e = none) :
    exec i s = .next (completion i s) := by
  rw [exec_eq, outcome_of_no_fault hc]

/-- Settles O6: the three faults from `exec_of_memRange` and its like, the effect from `completion`, which for LDI
is one register write and one PC write. -/
theorem ldiFollowsItsRule : Obligations.LdiFollowsItsRule := by
  intro s reg imm8
  refine ⟨rfl, fun h => ?_, fun h hreg => ?_, fun h hreg => ?_, fun h r hr => ?_⟩
  · exact exec_of_memRange (by rw [length_ldi]; omega)
  · exact exec_of_regIndex (by rw [length_ldi]; omega) ((selectsRegister_eq_false_iff reg).mpr hreg)
  · exact exec_of_pcRange (by rw [length_ldi]; omega) ((selectsRegister_iff reg).mpr hreg) rfl
      (by rw [length_ldi]; omega)
  · have hc : execFault (.ldi reg imm8) s.pc s.fl.e = none :=
      (execFault_eq_none_iff _ _ _).mpr
        ⟨by rw [length_ldi]; omega, selectsRegister_of_eq hr, fun _ => by rw [length_ldi]; omega⟩
    have hpc := completion_pc_of_advances hc rfl
    have hdone : completion (.ldi reg imm8) s = (s.writeReg r imm8).writePc (pcPlus 3 s) := by
      rw [completion, regOf_eq hr]
    rw [hdone] at hpc
    exact ⟨_, (exec_of_no_fault hc).trans (congrArg _ hdone), State.readReg_writeReg_same s r imm8,
      fun q hq => State.readReg_writeReg_ne s r q imm8 hq, hpc, rfl, rfl, rfl, rfl, fun _ => rfl⟩

end Sys2Proof.ExecProofs

namespace Sys2Proof.PrnProofs
/-! PROOFS. The statements about PRN and the sink (spec/42_prn.md): PRN's faults and effect, over `exec_eq`; and the
sink's text, which is cut at its line ends and whose lines are read back in base 10. -/

open Sys2Proof.Machine Sys2Proof.Facts Sys2Proof.ExecProofs Sys2Proof.LoaderProofs

/-- Settles O7: the three faults from `exec_of_memRange` and its like, which leave OUT alone; the effect from
`completion`, which for PRN is one value emitted and one PC write. -/
theorem prnFollowsItsRule : Obligations.PrnFollowsItsRule := by
  intro s reg
  refine ⟨rfl, fun h => ?_, fun h hreg => ?_, fun h hreg => ?_, fun h r hr => ?_⟩
  · exact exec_of_memRange (by rw [length_prn]; omega)
  · exact exec_of_regIndex (by rw [length_prn]; omega) ((selectsRegister_eq_false_iff reg).mpr hreg)
  · exact exec_of_pcRange (by rw [length_prn]; omega) ((selectsRegister_iff reg).mpr hreg) rfl
      (by rw [length_prn]; omega)
  · have hc : execFault (.prn reg) s.pc s.fl.e = none :=
      (execFault_eq_none_iff _ _ _).mpr
        ⟨by rw [length_prn]; omega, selectsRegister_of_eq hr, fun _ => by rw [length_prn]; omega⟩
    have hout : (completion (.prn reg) s).out = s.out ++ [s.readReg r] := by
      rw [completion, regOf_eq hr, State.writePc_out, State.emit_out]
    have hpc : (completion (.prn reg) s).pc.toNat = s.pc.toNat + 2 := completion_pc_of_advances hc rfl
    exact ⟨_, exec_of_no_fault hc, hout, hpc, rfl, rfl, rfl, rfl, fun _ => rfl⟩

/-! ### The digits of one value -/

/-- The digits are read back as the value they write. -/
theorem foldl_decimal (v : Byte) :
    (decimal v).foldl (fun n c => 10 * n + (c.toNat - '0'.toNat)) 0 = v.toNat := by
  rw [← Nat.ofDigitChars_eq_foldl]
  exact Nat.ofDigitChars_ten_toDigits

theorem decimal_injective : Function.Injective decimal := fun v w h =>
  BitVec.eq_of_toNat_eq (by rw [← foldl_decimal v, h, foldl_decimal])

theorem isDigit_of_mem_decimal {v : Byte} {c : Char} (h : c ∈ decimal v) : c.isDigit = true :=
  Nat.isDigit_of_mem_toDigits (by decide) (by decide) h

theorem newline_not_mem_decimal (v : Byte) : '\n' ∉ decimal v := fun h =>
  absurd (isDigit_of_mem_decimal h) (by decide)

/-- The digits of a positive number begin with those of its tenth, down to one digit that is not zero. -/
theorem head?_toDigits_ne_zero (n : Nat) (h : n ≠ 0) : (Nat.toDigits 10 n).head? ≠ some '0' := by
  induction n using Nat.strongRecOn with
  | ind n ih =>
    rcases Nat.lt_or_ge n 10 with hlt | hge
    · rw [Nat.toDigits_of_lt_base hlt, List.head?_cons, Ne, Option.some.injEq, Nat.digitChar_eq_zero]
      exact h
    · rw [Nat.toDigits_of_base_le (by decide) hge, List.head?_append_of_ne_nil _ Nat.toDigits_ne_nil]
      exact ih (n / 10) (by omega) (by omega)

/-! ### The text of several values -/

theorem sinkText_append (before after : List Byte) :
    sinkText (before ++ after) = sinkText before ++ sinkText after := by
  simp [sinkText]

theorem sinkText_cons (v : Byte) (out : List Byte) : sinkText (v :: out) = decimal v ++ '\n' :: sinkText out := by
  simp [sinkText, sinkLine]

/-- Cut at its line ends, the text gives the digits of each value of OUT, and nothing after the last line end. -/
theorem splitLines_sinkText (out : List Byte) : splitLines (sinkText out) = out.map decimal ++ [[]] := by
  induction out with
  | nil => rfl
  | cons v rest ih =>
    rw [sinkText_cons, splitLines_append, splitLines_line (newline_not_mem_decimal v), ih]
    rfl

theorem sinkText_injective : Function.Injective sinkText := by
  intro out other h
  have hlines : out.map decimal ++ [[]] = other.map decimal ++ [[]] := by
    rw [← splitLines_sinkText, h, splitLines_sinkText]
  exact decimal_injective.list_map (List.append_cancel_right hlines)

/-- Settles O33: the digits are the library's for base 10, and the lines are found again at their line ends
(`splitLines_sinkText`), which no digit is. -/
theorem sinkTextDeterminesOut : Obligations.SinkTextDeterminesOut := by
  refine ⟨fun v => ⟨foldl_decimal v, fun c hc => ?_, fun hv => ?_⟩, rfl, fun v => ?_, sinkText_append,
    fun _ _ h => sinkText_injective h⟩
  · have hdigit := isDigit_of_mem_decimal hc
    simpa [Char.isDigit, Char.le_def] using hdigit
  · exact head?_toDigits_ne_zero v.toNat fun h0 => hv (BitVec.eq_of_toNat_eq h0)
  · exact sinkText_cons v []

end Sys2Proof.PrnProofs

namespace Sys2Proof.CmpProofs
/-! PROOFS. The statement about CMP (spec/43_cmp.md): its faults and effect, over `exec_eq`, with the flags of a
comparison written out for each order of the two values. -/

open Sys2Proof.Machine Sys2Proof.Facts Sys2Proof.ExecProofs

/-! ### The operands -/

theorem operandsLegal_cmp_iff (regA regB : Byte) :
    (Instr.cmp regA regB).operandsLegal = true ↔ regA.toNat ≤ 7 ∧ regB.toNat ≤ 7 := by
  rw [Instr.operandsLegal, Bool.and_eq_true, selectsRegister_iff, selectsRegister_iff]

theorem operandsLegal_cmp_eq_false_iff (regA regB : Byte) :
    (Instr.cmp regA regB).operandsLegal = false ↔ 7 < regA.toNat ∨ 7 < regB.toNat := by
  rw [Instr.operandsLegal, Bool.and_eq_false_iff, selectsRegister_eq_false_iff, selectsRegister_eq_false_iff]

/-! ### The flags (rules R92, R93) -/

theorem completion_cmp_fl {regA regB : Byte} {a b : RegNum} (ha : regA.toNat = a.val) (hb : regB.toNat = b.val)
    (s : State) : (completion (.cmp regA regB) s).fl = compareFlags s.x[a] s.x[b] := by
  rw [completion, State.writePc_fl, State.writeFlags_fl, regOf_eq ha, regOf_eq hb, State.readReg, State.readReg]

theorem compareFlags_of_lt {va vb : Byte} (h : va.toNat < vb.toNat) : compareFlags va vb = ⟨true, false, false⟩ := by
  simp only [compareFlags, gt_iff_lt, h, Nat.lt_asymm h, h.ne, decide_true, decide_false]

theorem compareFlags_of_gt {va vb : Byte} (h : vb.toNat < va.toNat) : compareFlags va vb = ⟨false, true, false⟩ := by
  simp only [compareFlags, gt_iff_lt, h, Nat.lt_asymm h, h.ne', decide_true, decide_false]

theorem compareFlags_of_eq {va vb : Byte} (h : va.toNat = vb.toNat) : compareFlags va vb = ⟨false, false, true⟩ := by
  simp only [compareFlags, gt_iff_lt, h, Nat.lt_irrefl, decide_true, decide_false]

/-- Settles O8: the three faults from `exec_of_memRange` and its like, which leave FL alone; the effect from
`completion`, which for CMP is one write of FL and one PC write; the flags by the order of the two values. -/
theorem cmpFollowsItsRules : Obligations.CmpFollowsItsRules := by
  intro s regA regB
  refine ⟨rfl, fun h => ?_, fun h hreg => ?_, fun h ha hb => ?_, fun h a b ha hb => ?_⟩
  · exact exec_of_memRange (by rw [length_cmp]; omega)
  · exact exec_of_regIndex (by rw [length_cmp]; omega) ((operandsLegal_cmp_eq_false_iff regA regB).mpr hreg)
  · exact exec_of_pcRange (by rw [length_cmp]; omega) ((operandsLegal_cmp_iff regA regB).mpr ⟨ha, hb⟩) rfl
      (by rw [length_cmp]; omega)
  · have hc : execFault (.cmp regA regB) s.pc s.fl.e = none :=
      (execFault_eq_none_iff _ _ _).mpr
        ⟨by rw [length_cmp]; omega, (operandsLegal_cmp_iff regA regB).mpr ⟨by omega, by omega⟩,
          fun _ => by rw [length_cmp]; omega⟩
    have hpc : (completion (.cmp regA regB) s).pc.toNat = s.pc.toNat + 3 := completion_pc_of_advances hc rfl
    have hfl := completion_cmp_fl ha hb s
    have hflags {f : Flags} (hf : compareFlags s.x[a] s.x[b] = f) :
        (completion (.cmp regA regB) s).fl = f ∧ (completion (.cmp regA regB) s).fl8 = f.byte :=
      ⟨hfl.trans hf, congrArg Flags.byte (hfl.trans hf)⟩
    exact ⟨_, exec_of_no_fault hc, fun hlt => hflags (compareFlags_of_lt hlt),
      fun hgt => hflags (compareFlags_of_gt hgt), fun heq => hflags (compareFlags_of_eq heq), hpc,
      rfl, rfl, rfl, rfl, fun _ => rfl⟩

end Sys2Proof.CmpProofs

namespace Sys2Proof.JumpProofs
/-! PROOFS. The statements about JMP, JEQ and JNE (spec/44_jumps.md). All three are `conditionalJump`, with the
condition true, E and not E: each fault and each effect is said once, of it, over `conditionalJump_cases`. -/

open Sys2Proof.Machine Sys2Proof.Statements Sys2Proof.Laws Sys2Proof.Facts

/-! ### The three jumps are one -/

/-- JMP is the jump that is always taken (rule R97). -/
theorem exec_jmp (reg : Byte) (s : State) : exec (.jmp reg) s = conditionalJump true reg s := rfl

theorem exec_jeq (reg : Byte) (s : State) : exec (.jeq reg) s = conditionalJump s.fl.e reg s := rfl

theorem exec_jne (reg : Byte) (s : State) : exec (.jne reg) s = conditionalJump (!s.fl.e) reg s := rfl

/-! ### Faults and effects -/

section
variable {taken : Bool} {reg : Byte} {s : State}

theorem conditionalJump_of_memRange (h : s.pc.toNat = 255) :
    conditionalJump taken reg s = .next (faultedWith s .memRange) := by
  obtain ⟨-, he⟩ | ⟨hpc, -⟩ | ⟨hpc, -⟩ | ⟨_, hpc, -⟩ | ⟨hpc, -⟩ := conditionalJump_cases taken reg s
  · exact he
  all_goals omega

/-- The index is checked whether or not the jump is taken. -/
theorem conditionalJump_of_regIndex (h : s.pc.toNat ≤ 254) (hreg : 7 < reg.toNat) :
    conditionalJump taken reg s = .next (faultedWith s .regIndex) := by
  obtain ⟨hpc, -⟩ | ⟨-, -, he⟩ | ⟨-, hle, -⟩ | ⟨r, -, hr, -⟩ | ⟨-, hle, -⟩ := conditionalJump_cases taken reg s
  · omega
  · exact he
  all_goals omega

/-- The sequential address is checked where the jump is not taken. -/
theorem conditionalJump_of_pcRange (h : s.pc.toNat = 254) (hreg : reg.toNat ≤ 7) (ht : taken = false) :
    conditionalJump taken reg s = .next (faultedWith s .pcRange) := by
  obtain ⟨hpc, -⟩ | ⟨-, hgt, -⟩ | ⟨-, -, -, he⟩ | ⟨_, -, -, ht', -⟩ | ⟨hpc, -⟩ := conditionalJump_cases taken reg s
  · omega
  · omega
  · exact he
  · cases ht.symm.trans ht'
  · omega

/-- A taken jump needs no room for a next instruction. -/
theorem conditionalJump_of_taken (h : s.pc.toNat ≤ 254) {r : RegNum} (hr : reg.toNat = r.val) (ht : taken = true) :
    conditionalJump taken reg s = .next (s.writePc (s.readReg r)) := by
  have hlt := r.isLt
  obtain ⟨hpc, -⟩ | ⟨-, hgt, -⟩ | ⟨-, -, ht', -⟩ | ⟨q, -, hq, -, he⟩ | ⟨-, -, ht', -⟩ :=
    conditionalJump_cases taken reg s
  · omega
  · omega
  · cases ht.symm.trans ht'
  · rw [he, Fin.ext (hq.symm.trans hr)]
  · cases ht.symm.trans ht'

theorem conditionalJump_of_not_taken (h : s.pc.toNat ≤ 253) (hreg : reg.toNat ≤ 7) (ht : taken = false) :
    conditionalJump taken reg s = .next (s.writePc (pcPlus 2 s)) := by
  obtain ⟨hpc, -⟩ | ⟨-, hgt, -⟩ | ⟨hpc, -⟩ | ⟨_, -, -, ht', -⟩ | ⟨-, -, -, he⟩ := conditionalJump_cases taken reg s
  · omega
  · omega
  · omega
  · cases ht.symm.trans ht'
  · exact he

theorem sameButRegistersAndPc_writePc (s : State) (t : Byte) : sameButRegistersAndPc s (s.writePc t) :=
  ⟨rfl, rfl, rfl, rfl, fun _ => rfl⟩

/-- A taken jump's result, field by field. -/
theorem conditionalJump_taken_frame (h : s.pc.toNat ≤ 254) {r : RegNum} (hr : reg.toNat = r.val)
    (ht : taken = true) : ∃ t, conditionalJump taken reg s = .next t ∧ t.pc = s.x[r] ∧ t.x = s.x ∧
      sameButRegistersAndPc s t :=
  ⟨_, conditionalJump_of_taken h hr ht, rfl, rfl, sameButRegistersAndPc_writePc s _⟩

/-- The result of a jump that is not taken, field by field. -/
theorem conditionalJump_not_taken_frame (h : s.pc.toNat ≤ 253) (hreg : reg.toNat ≤ 7) (ht : taken = false) :
    ∃ t, conditionalJump taken reg s = .next t ∧ t.pc.toNat = s.pc.toNat + 2 ∧ t.x = s.x ∧
      sameButRegistersAndPc s t :=
  ⟨_, conditionalJump_of_not_taken h hreg ht, pcPlus_toNat (by omega), rfl, sameButRegistersAndPc_writePc s _⟩

/-! ### Exactly one of JEQ and JNE is taken (rule R99) -/

theorem pcPlus_eq_add (n : Nat) (s : State) : pcPlus n s = s.pc + BitVec.ofNat 8 n := by
  rw [pcPlus, BitVec.ofNat_add, BitVec.ofNat_toNat, BitVec.setWidth_eq]

/-- The jump whose condition holds does what JMP does, and the one with the opposite condition only advances. -/
theorem conditionalJump_jmp_and_advance (h : s.pc.toNat ≤ 253) (hreg : reg.toNat ≤ 7) (ht : taken = true) :
    conditionalJump taken reg s = exec (.jmp reg) s ∧
      conditionalJump (!taken) reg s = .next { s with pc := s.pc + 2 } := by
  subst ht
  refine ⟨(exec_jmp reg s).symm, ?_⟩
  rw [conditionalJump_of_not_taken h hreg Bool.not_true, pcPlus_eq_add]
  rfl

end

/-- Settles O9: JMP is the jump that is always taken. -/
theorem jmpFollowsItsRule : Obligations.JmpFollowsItsRule := by
  intro s reg
  rw [exec_jmp]
  exact ⟨rfl, conditionalJump_of_memRange, conditionalJump_of_regIndex,
    fun h _ hr => conditionalJump_taken_frame h hr rfl⟩

/-- Settles O10: JEQ is the jump that is taken when E = 1. -/
theorem jeqFollowsItsRule : Obligations.JeqFollowsItsRule := by
  intro s reg
  rw [exec_jeq]
  exact ⟨rfl, conditionalJump_of_memRange, conditionalJump_of_regIndex,
    fun h hreg he => conditionalJump_of_pcRange h hreg he,
    fun h he _ hr => conditionalJump_taken_frame h hr he,
    fun h he hreg => conditionalJump_not_taken_frame h hreg he⟩

/-- Settles O11: JNE is the jump that is taken when E = 0; which of JEQ and JNE is taken is told by the cases of E. -/
theorem jneFollowsItsRule : Obligations.JneFollowsItsRule := by
  intro s reg
  rw [exec_jne, exec_jeq]
  refine ⟨rfl, conditionalJump_of_memRange, conditionalJump_of_regIndex, fun h hreg he => ?_, fun h he r hr => ?_,
    fun h he hreg => ?_, fun h hreg => ?_⟩
  · exact conditionalJump_of_pcRange h hreg (by rw [he, Bool.not_true])
  · exact conditionalJump_taken_frame h hr (by rw [he, Bool.not_false])
  · exact conditionalJump_not_taken_frame h hreg (by rw [he, Bool.not_true])
  · cases he : s.fl.e with
    | true => exact .inl (conditionalJump_jmp_and_advance h hreg rfl)
    | false => exact .inr (conditionalJump_jmp_and_advance (taken := true) h hreg rfl)

end Sys2Proof.JumpProofs

namespace Sys2Proof.HaltProofs
/-! PROOFS. The statement about the halt (spec/45_halt.md): an unrecognised opcode byte is fetched alone, so that no
address is too high for it. -/

open Sys2Proof.Machine Sys2Proof.Statements Sys2Proof.Laws Sys2Proof.Facts Sys2Proof.EncodingProofs

/-- A byte that is none of the six opcodes is one byte long (rules R56, R57). -/
theorem instrLength_of_not_recognised {op : Byte} (h : recognised op = false) : instrLength op = 1 :=
  not_not.mp (mt (instrLength_ne_one_iff op).mp (Bool.eq_false_iff.mp h))

/-- An unrecognised opcode byte fetches as a halt at every PC: there is no operand byte to read (rules R60, R73). -/
theorem fetch_of_not_recognised {s : State} (h : recognised (fetchOpcode s) = false) :
    fetch s = .ok (.halt (fetchOpcode s)) := by
  rw [fetch, instrLength_of_not_recognised h, fetchOperands_zero]
  simp only [ok_bind, decode_of_not_recognised h]

/-- The halt writes RUN alone (rule R105). -/
theorem exec_halt (op : Byte) (s : State) : exec (.halt op) s = .next { s with run := .halted } := rfl

/-- Settles O12: the effect is `exec_halt`, and a step comes to it because fetching the byte cannot fault. -/
theorem haltFollowsItsRule : Obligations.HaltFollowsItsRule := by
  intro s op hop
  refine ⟨rfl, exec_halt op s, fun hrun hpc => ?_⟩
  have hopcode : fetchOpcode s = op := hpc
  have hrec : recognised (fetchOpcode s) = false := by
    rw [hopcode]
    exact Bool.eq_false_iff.mpr (mt (mem_sixOpcodes_iff op).mpr hop)
  rw [step_of_fetch_ok hrun (fetch_of_not_recognised hrec), exec_halt]

end Sys2Proof.HaltProofs

namespace Sys2Proof.FaultProofs
/-! PROOFS. The statements about faults (spec/60_exceptions.md). `instrAt` is the instruction the bytes at PC make, also
where some of its bytes are no cells: one RUNNING step is its `outcome`, and the fault table is its `execFault`. -/

open Sys2Proof.Machine Sys2Proof.Statements Sys2Proof.Laws Sys2Proof.Facts Sys2Proof.StateProofs

/-! ### The fault table -/

/-- The instruction at PC by its opcode byte (rules R55, R56). An operand byte above address 255 is one the table never
looks at, since MEM_RANGE comes first (rule R113). -/
def instrAt (s : State) : Instr :=
  if fetchOpcode s = opLdi then .ldi (byteAfterPc s 1) (byteAfterPc s 2)
  else if fetchOpcode s = opPrn then .prn (byteAfterPc s 1)
  else if fetchOpcode s = opCmp then .cmp (byteAfterPc s 1) (byteAfterPc s 2)
  else if fetchOpcode s = opJmp then .jmp (byteAfterPc s 1)
  else if fetchOpcode s = opJeq then .jeq (byteAfterPc s 1)
  else if fetchOpcode s = opJne then .jne (byteAfterPc s 1)
  else .halt (fetchOpcode s)

theorem instrAt_of_not_recognised {s : State} (h : recognised (fetchOpcode s) = false) :
    instrAt s = .halt (fetchOpcode s) := by
  simp only [recognised, Bool.or_eq_false_iff, beq_eq_false_iff_ne] at h
  simp [instrAt, h]

/-- What fetching answers is the instruction at PC (rules R71 to R73). -/
theorem eq_instrAt_of_fetch {s : State} {i : Instr} (hf : fetch s = .ok i) : i = instrAt s := by
  rw [fetch_eq] at hf
  split at hf
  · rename_i h3
    split at hf
    · cases hf
    · cases hf
      obtain h | h := (instrLength_eq_three_iff _).mp h3 <;> rw [instrAt, h] <;> rfl
  · rename_i h3
    split at hf
    · rename_i h2
      split at hf
      · cases hf
      · cases hf
        obtain h | h | h | h := (instrLength_eq_two_iff _).mp h2 <;> rw [instrAt, h] <;> rfl
    · rename_i h2
      cases hf
      have h1 := (instrLength_cases _).resolve_right (not_or.mpr ⟨h2, h3⟩)
      have hrec : recognised (fetchOpcode s) = false :=
        Bool.eq_false_iff.mpr (mt (instrLength_ne_one_iff _).mpr (not_not.mpr h1))
      exact (instrAt_of_not_recognised hrec).symm

/-- The bytes of the instruction at PC are as many as its opcode byte says (rule R57). -/
theorem instrAt_length (s : State) : (instrAt s).length = instrLength (fetchOpcode s) := by
  unfold instrAt
  split_ifs with h1 h2 h3 h4 h5 h6
  · rw [h1]; rfl
  · rw [h2]; rfl
  · rw [h3]; rfl
  · rw [h4]; rfl
  · rw [h5]; rfl
  · rw [h6]; rfl
  · simp [instrLength, recognised, h1, h2, h3, h4, h5, h6]

/-- A RUNNING unit's step is the outcome of the instruction at PC: the check that fetching makes is the instruction's
own (log entry 7). -/
theorem step_eq_outcome {s : State} (hrun : s.run = .running) : step s = .next (outcome (instrAt s) s) := by
  cases hf : fetch s with
  | ok i => rw [step_of_fetch_ok hrun hf, exec_eq, eq_instrAt_of_fetch hf]
  | error c =>
    have hlast : 255 < s.pc.toNat + ((instrAt s).length - 1) := by
      rw [instrAt_length]
      exact (fetch_fault hf).2
    rw [step_of_fetch_error hrun hf, fetch_error hf, memRange_answer hlast]

/-- The table's rows of three-byte instructions (rules R112, R113). -/
theorem execFault_of_length_three {i : Instr} {e bad : Bool} (hlen : i.length = 3) (hadv : advances i e = true)
    (hbad : i.operandsLegal = !bad) (pc : Byte) :
    execFault i pc e =
      if 254 ≤ pc.toNat then some .memRange else if bad then some .regIndex
      else if pc.toNat = 253 then some .pcRange else none := by
  simp only [execFault, hlen, hadv, hbad, Bool.not_eq_false', true_and]
  by_cases h : 254 ≤ pc.toNat
  · rw [if_pos h, if_pos (by omega)]
  · have htop : 255 < pc.toNat + 3 ↔ pc.toNat = 253 := by omega
    rw [if_neg h, if_neg (by omega)]
    simp only [htop]

/-- The table's rows of two-byte instructions (rules R112, R113). -/
theorem execFault_of_length_two {i : Instr} {e bad adv : Bool} (hlen : i.length = 2) (hadv : advances i e = adv)
    (hbad : i.operandsLegal = !bad) (pc : Byte) :
    execFault i pc e =
      if pc.toNat = 255 then some .memRange else if bad then some .regIndex
      else if pc.toNat = 254 ∧ adv = true then some .pcRange else none := by
  have hpc := pc.isLt
  simp only [execFault, hlen, hadv, hbad, Bool.not_eq_false']
  by_cases h : pc.toNat = 255
  · rw [if_pos h, if_pos (by omega)]
  · have htop : 255 < pc.toNat + 2 ↔ pc.toNat = 254 := by omega
    rw [if_neg h, if_neg (by omega)]
    simp only [htop, and_comm]

/-- The table's test of an operand byte is the model's, negated (rules R53, R74). -/
theorem selectsRegister_eq_not (b : Byte) : selectsRegister b = !decide (7 < b.toNat) := by
  rw [selectsRegister, ← decide_not]
  simp only [Nat.not_lt]

theorem selectsRegister_and_eq_not (a b : Byte) :
    (selectsRegister a && selectsRegister b) = !(decide (7 < a.toNat) || decide (7 < b.toNat)) := by
  rw [selectsRegister_eq_not, selectsRegister_eq_not, Bool.not_or]

/-- The table, read off the bytes in memory, gives the first check that fails of the instruction at PC. -/
theorem tabulatedFault_eq (s : State) : tabulatedFault s = execFault (instrAt s) s.pc s.fl.e := by
  have hop : s.memRead s.pc = fetchOpcode s := rfl
  unfold instrAt
  split_ifs with h1 h2 h3 h4 h5 h6
  · rw [tabulatedFault, hop, h1]
    exact (execFault_of_length_three (i := .ldi _ _) rfl rfl (selectsRegister_eq_not _) s.pc).symm
  · rw [tabulatedFault, hop, h2]
    exact (execFault_of_length_two (i := .prn _) rfl rfl (selectsRegister_eq_not _) s.pc).symm
  · rw [tabulatedFault, hop, h3]
    exact (execFault_of_length_three (i := .cmp _ _) rfl rfl (selectsRegister_and_eq_not _ _) s.pc).symm
  · rw [tabulatedFault, hop, h4]
    exact (execFault_of_length_two (i := .jmp _) rfl rfl (selectsRegister_eq_not _) s.pc).symm
  · rw [tabulatedFault, hop, h5]
    exact (execFault_of_length_two (i := .jeq _) rfl rfl (selectsRegister_eq_not _) s.pc).symm
  · rw [tabulatedFault, hop, h6]
    exact (execFault_of_length_two (i := .jne _) rfl rfl (selectsRegister_eq_not _) s.pc).symm
  · rw [execFault_halt, tabulatedFault, hop]
    exact (if_neg h1).trans ((if_neg h2).trans ((if_neg h3).trans ((if_neg h4).trans ((if_neg h5).trans (if_neg h6)))))

/-- Settles O14: a step is the outcome of the instruction at PC, and the table is that instruction's fault. -/
theorem stepFaultsExactlyAsTabulated : Obligations.StepFaultsExactlyAsTabulated := by
  intro s t hrun hs
  rw [step_eq_outcome hrun, Host.Outcome.next.injEq] at hs
  rw [tabulatedFault_eq, ← hs]
  refine ⟨fun c hc => outcome_of_fault hc, fun hc => ?_⟩
  rw [outcome_of_no_fault hc]
  exact completion_run_ne_faulted (by simp [hrun])

/-! ### Precise and terminal -/

/-- The codes of the three causes are not that of NONE (rules R24, R111). -/
theorem faultCode_some_ne_zero (c : FaultCause) : faultCode (some c) ≠ 0 := by
  cases c <;> decide

/-- A run goes nowhere from a state that is not RUNNING (rule R77). -/
theorem eq_of_reaches_of_stopped {t u : State} (ht : t.run ≠ .running) (hr : Reaches t u) : u = t := by
  induction hr with
  | start => rfl
  | tail _ hstep ih =>
    rw [ih] at hstep
    exact absurd hstep.1 ht

/-- Settles O15: a step into FAULTED is the taking of a fault, which writes RUN and FC alone. -/
theorem faultsArePreciseAndTerminal : Obligations.FaultsArePreciseAndTerminal := by
  refine ⟨⟨rfl, rfl, rfl, rfl⟩, fun s t hrun hs hfaulted => ?_⟩
  obtain ⟨c, -, rfl⟩ | ⟨i, -, -, rfl⟩ := running_step_cases hrun hs
  · exact ⟨rfl, rfl, rfl, rfl, fun _ => rfl, ⟨c, rfl⟩, faultCode_some_ne_zero c,
      fun u => eq_of_reaches_of_stopped (by simp)⟩
  · exact absurd hfaulted (completion_run_ne_faulted (by simp [hrun]))

/-! ### The range conditions -/

/-- An instruction that raises no fault meets rule R125's range conditions: the converse of `no_fault_of_inRange`. -/
theorem inRange_of_no_fault {s : State} {i : Instr} (hf : fetch s = .ok i) (hc : execFault i s.pc s.fl.e = none) :
    s.nextInstrInRange := by
  obtain ⟨hlast, hlegal, htop⟩ := (execFault_eq_none_iff _ _ _).mp hc
  rw [length_of_fetch hf] at hlast htop
  refine ⟨fun hrec => ⟨hlast, fun heq => ?_⟩, fun j hj => ?_⟩
  · by_contra hjump
    have hnext := htop (by rw [advances_of_fetch hf hrec, Bool.eq_false_iff.mpr hjump, Bool.not_false])
    rw [State.lastByteAddr, Config.lastAddress] at heq
    have := instrLength_cases (fetchOpcode s)
    omega
  · rw [hf, Except.ok.injEq] at hj
    rwa [← hj]

/-- A RUNNING unit's step does not fault exactly where the range conditions hold (rules R112, R125). -/
theorem run_ne_faulted_iff_inRange {s t : State} (hrun : s.run = .running) (hs : step s = .next t) :
    t.run ≠ .faulted ↔ s.nextInstrInRange := by
  refine ⟨fun hnot => ?_, fun hrange => ?_⟩
  · obtain ⟨c, -, rfl⟩ | ⟨i, hf, hc, -⟩ := running_step_cases hrun hs
    · exact absurd rfl hnot
    · exact inRange_of_no_fault hf hc
  · obtain ⟨i, hf⟩ := fetch_of_inRange hrange
    rw [step_of_no_fault hrun hf (no_fault_of_inRange hrange hf), Host.Outcome.next.injEq] at hs
    rw [← hs]
    exact completion_run_ne_faulted (by simp [hrun])

/-- Settles O34: each state of a run but the first is one RUNNING step from the state before it. -/
theorem runInRangeNeverFaults : Obligations.RunInRangeNeverFaults := by
  refine fun s hrun => ⟨fun t => run_ne_faulted_iff_inRange hrun, fun hrange u hr => ?_⟩
  cases hr with
  | start => simp [hrun]
  | tail ht hstep =>
    obtain ⟨hrunning, hs⟩ := hstep
    exact (run_ne_faulted_iff_inRange hrunning hs).mpr (hrange _ ht hrunning)

end Sys2Proof.FaultProofs

namespace Sys2Proof.BootProofs
/-! PROOFS. The statements about the load of a text (spec/70_reset_and_hazards.md). `bootFrom` has two answers for a
text, by its number of bytes; the empty program is the launch state of no bytes, whose byte at PC is a halt. -/

open Sys2Proof.Machine Sys2Proof.Statements Sys2Proof.Laws Sys2Proof.StateProofs Sys2Proof.HaltProofs

/-- A text of more bytes than memory has cells is refused (rule R138). -/
theorem bootFrom_of_overflow (p : Config.ResetValues) {text : List Char} (h : 256 < (textBytes text).length) :
    bootFrom p (some text) = .error .overflow := by
  rw [bootFrom, loadText, if_pos h]
  rfl

/-- A text of at most as many bytes as memory has cells starts a run from its launch state (rule R135). -/
theorem bootFrom_of_fits (p : Config.ResetValues) {text : List Char} (h : (textBytes text).length ≤ 256) :
    bootFrom p (some text) = .ok (State.launch p (textBytes text)) := by
  rw [bootFrom, loadText, if_neg (Nat.not_lt.mpr h)]
  rfl

/-- Settles O32: the two answers for a text meet at 256 bytes. -/
theorem loadIsRefusedOnlyAboveCapacity : Obligations.LoadIsRefusedOnlyAboveCapacity :=
  fun p _ => ⟨bootFrom_of_overflow p, bootFrom_of_fits p, rfl⟩

/-- Settles O28: every cell holds the fill byte 0, which is not one of the six opcodes, so the first step is a halt. -/
theorem emptyProgramHaltsInItsFirstStep : Obligations.EmptyProgramHaltsInItsFirstStep := by
  intro p text hempty
  have hlength : (textBytes text).length = 0 := List.length_eq_zero_iff.mpr hempty
  have hsize : (textBytes text).length ≤ 256 := by omega
  obtain ⟨-, hpc, -, hrun, -, hout, -, hfill⟩ := launchStateIsTheSpecs p (textBytes text) hsize
  have hzero (a : Byte) : (State.launch p (textBytes text)).memRead a = 0 := hfill a (by omega)
  obtain ⟨-, -, hstep⟩ := haltFollowsItsRule (State.launch p (textBytes text)) 0 (by decide)
  exact ⟨_, bootFrom_of_fits p hsize, hzero, hpc, hout, hstep hrun (hzero _)⟩

end Sys2Proof.BootProofs
